-- ==== Sys2Proof/Word.lean ====
section
/-! DEFINITION. The word types of the packet codec: every wire field is one byte (00_scope.md R6, R7). -/

namespace Sys2Proof

/-- A byte, an unsigned integer in 0..255 (R7). -/
abbrev Byte := BitVec 8

/-- A word16, an unsigned integer in 0..65535 (R7). -/
abbrev Word16 := BitVec 16

end Sys2Proof
end

