-- ==== Sys2Proof/Config.lean ====
section
/-! DEFINITION. The implementation parameters of 00_scope.md R6: the constants the source fixes, the two
parameters it leaves OPEN, and the one free value (the text of an error's reason, D13). -/

namespace Sys2Proof

/-- The parameters R6 leaves OPEN. They are fixed for the life of a machine (R25); State carries them so that a
statement about every state covers every choice (log entry 3). -/
structure Params where
  /-- `BUF_CAP`: the capacity of RXBUF in bytes; `none` is unbounded, the default (R6, D3). -/
  bufCap : Option Nat
  /-- `VALUE_BITS`: the width of the `value` operand of a sync-write command (R6, D10). -/
  valueBits : Nat
  deriving DecidableEq, Repr

/-- The default of each OPEN parameter (R6): unbounded, and 32. -/
def Params.default : Params := { bufCap := none, valueBits := 32 }

/-- What R6 asks of the OPEN parameters: a finite `BUF_CAP` is at least 259, `VALUE_BITS` is at least 16. -/
def Params.legal (p : Params) : Bool :=
  (match p.bufCap with
   | none => true
   | some c => decide (259 ≤ c))
  && decide (16 ≤ p.valueBits)

/-- Whether a buffer of `n` bytes respects `BUF_CAP` (R20, R121). -/
def Params.fits (p : Params) (n : Nat) : Bool :=
  match p.bufCap with
  | none => true
  | some c => decide (n ≤ c)

namespace Config

/-- One byte of the frame header: `HEADER = [0xFF, 0xFF]` (R6, R79). -/
abbrev headerByte : Byte := 0xFF

/-- `BROADCAST_ID` (R6, R49). -/
abbrev broadcastId : Byte := 0xFE

/-- `MIN_LEN`, the smallest legal LEN on receive (R6, R78). -/
abbrev minLen : Nat := 2

/-- `MAX_LEN`, the largest LEN (R6, R61). -/
abbrev maxLen : Nat := 255

/-- `MAX_PARAMS`, the longest parameter list of a frame (R6, R61). -/
abbrev maxParams : Nat := 253

/-- `MAX_FRAME`, the longest frame (R6, R64). -/
abbrev maxFrame : Nat := 259

/-- `SYNC_MAX_COUNT(width)`, the most commands one sync-write can carry: it follows from `MAX_LEN` and
`LEN = (width + 1) * count + 4` (R6, R109). -/
def syncMaxCount (width : Byte) : Nat := (maxLen - 4) / (width.toNat + 1)

/-- FREE VALUE: the text of the `reason` of the n-th `DecodingError` raised. The source gives no text and "two
reasons are never compared" (R107, D13, U2), so nothing constrains it. DESIGN CHOICE of the form, log entry 4. -/
opaque reasonText : Nat → String

end Config
end Sys2Proof
end

