-- ==== Sys2Proof/Syntax.lean ====
section
/-! DEFINITION. The operations of the codec as syntax: one constructor for each row of spec/opcode_table.json, in
the table's order, with the operands of 30_encoding.md R82. -/

namespace Sys2Proof

/-- A SyncCommand: "a (device ID, raw integer value) pair" (00_scope.md glossary; R74). The value is an unsigned
integer of `VALUE_BITS` bits; the width is a check of WellFormed, and no output depends on it (R6). -/
structure SyncCommand where
  id : Byte
  value : Nat
  deriving DecidableEq, Repr

/-- The operations, one constructor per row of spec/opcode_table.json. -/
inductive Instr where
  /-- `ping(id)` (R102). -/
  | ping (id : Byte)
  /-- `read(id, addr, count)` (R103). -/
  | read (id addr count : Byte)
  /-- `write8(id, addr, value)` (R104). -/
  | write8 (id addr value : Byte)
  /-- `write16(id, addr, value)` (R105). -/
  | write16 (id addr : Byte) (value : Word16)
  /-- `sync_write(addr, width, commands)` (R106). -/
  | syncWrite (addr width : Byte) (commands : List SyncCommand)
  /-- A status packet, "received; decoded by decode()" (the STATUS row; R63, R125; log entry 5). -/
  | status (id errflags : Byte) (params : List Byte)
  /-- `checksum(bytes)` (R90). -/
  | checksum (bytes : List Byte)
  /-- `FRAME(id, code, params)` (R100). -/
  | frame (id code : Byte) (params : List Byte)
  /-- `push(bytes)` (R120). -/
  | push (bytes : List Byte)
  /-- `decode()` (R125). -/
  | decode
  /-- `clear()` (R139). -/
  | clear
  /-- `FIND_HEADER(s)` (R122). -/
  | findHeader (s : List Byte)
  /-- `CLASSIFY_FLAGS(e)` (R123). -/
  | classifyFlags (e : Byte)
  /-- `STATUS_FRAME(id, e, params)` (R124). -/
  | statusFrame (id e : Byte) (params : List Byte)
  /-- `DRAIN()` (R145). -/
  | drain
  deriving DecidableEq, Repr

/-- Who makes a move (00_scope.md R11). The block itself, CODEC, has no move of its own. -/
inductive Agent where
  /-- The controller software: it invokes every operation but `PUSH`. -/
  | host
  /-- The bus and the devices on it: its only move is `PUSH`. -/
  | link
  deriving DecidableEq, Repr

end Sys2Proof
end

