-- ==== Sys2Proof/Machine/Operands.lean ====
section
/-! DEFINITION. Byte sequences, the byte split, the checksum's arithmetic and the entries of a sync-write: the pure
operand computations that the encodings, the builders and the decoder share (00_scope.md R7 to R9, 30_encoding.md R73
to R75, 40_checksum.md R90). -/

namespace Sys2Proof.Machine

/-- `lo8(v) = v mod 256` (R9). -/
def lo8 (v : Nat) : Byte := BitVec.ofNat 8 v

/-- `hi8(v) = (v div 256) mod 256` (R9). -/
def hi8 (v : Nat) : Byte := BitVec.ofNat 8 (v / 256)

/-- `slice(s, i, n) = take(n, drop(i, s))`, the `n` bytes from index `i`; also `MemRead(i, n)` of RXBUF (R8, R9). -/
def slice (s : List Byte) (i n : Nat) : List Byte := (s.drop i).take n

/-- `s[i]` (R8). R8 defines it for `i < len(s)` only, and every use in the decoder is inside that range. -/
def byteAt (s : List Byte) (i : Nat) : Byte := s.getD i 0

/-- `sum(s)`, the sum of the bytes as a natural number, 0 for the empty sequence (R8). -/
def byteSum : List Byte → Nat
  | [] => 0
  | b :: rest => b.toNat + byteSum rest

/-- `CHECKSUM(bytes) = ~(sum(bytes) mod 256)`, the complement within 8 bits (R90). -/
def checksum (bytes : List Byte) : Byte := ~~~ (BitVec.ofNat 8 (byteSum bytes))

/-- The LEN field for a parameter list: `len(PARAM) + 2` (R61, R93 item 3). -/
def lenField (params : List Byte) : Nat := params.length + 2

/-- The LEN of a sync-write, `(width + 1) * count + 4`, a natural number computed without wrap-around (R93, R109). -/
def syncLen (width : Byte) (commands : List SyncCommand) : Nat :=
  (width.toNat + 1) * commands.length + 4

/-- One entry of a sync-write: the device id, then the low `width` bytes of the value, low byte first; bits above
`8 * width - 1` are dropped silently (R70, R74, R108). -/
def syncEntry (width : Byte) (c : SyncCommand) : List Byte :=
  if width = 2 then [c.id, lo8 c.value, hi8 c.value] else [c.id, lo8 c.value]

/-- The entries of a sync-write in list order, unsorted, unmerged (R106, R110). -/
def syncEntries (width : Byte) : List SyncCommand → List Byte
  | [] => []
  | c :: rest => syncEntry width c ++ syncEntries width rest

/-- The widths a sync-write accepts, 1 and 2 (R77, R106). -/
def syncWidthLegal (width : Byte) : Bool := width = 1 || width = 2

/-- The value of a sync-write command as the packet carries it: `value mod 2^(8 * width)` (R74). -/
def truncateCommand (width : Byte) (c : SyncCommand) : SyncCommand :=
  { id := c.id, value := c.value % 2 ^ (8 * width.toNat) }

end Sys2Proof.Machine
end

