-- ==== Sys2Proof/WellFormed.lean ====
section
/-! DEFINITION. Which operands an operation admits beyond the types of Syntax: the parameter lists a frame can carry
(R61, R100, R124), the length of a sync-write list (R109) and the width of a sync-write value (R6, R74). -/

namespace Sys2Proof

/-- `len(params) <= 253`, so that LEN fits one byte (R61, R100, R124). -/
def wfParams (params : List Byte) : Bool := params.length ≤ Config.maxParams

/-- Every value of a sync-write list is an unsigned integer of `VALUE_BITS` bits (R6, R74). -/
def wfValues (p : Params) (commands : List SyncCommand) : Bool :=
  commands.all fun c => decide (c.value < 2 ^ p.valueBits)

/-- A sync-write of a legal width is not longer than LEN can say (R109). A list with an illegal width has a meaning
whatever its length: the width error comes first (R107). -/
def wfSyncCount (width : Byte) (commands : List SyncCommand) : Bool :=
  !Machine.syncWidthLegal width || decide (Machine.syncLen width commands ≤ Config.maxLen)

/-- The operands R82 admits, for a choice of the OPEN parameters. -/
def Instr.wellFormed (p : Params) : Instr → Bool
  | .ping _ => true
  | .read _ _ _ => true
  | .write8 _ _ _ => true
  | .write16 _ _ _ => true
  | .syncWrite _ width commands => wfSyncCount width commands && wfValues p commands
  | .status _ _ params => wfParams params
  | .checksum _ => true
  | .frame _ _ params => wfParams params
  | .push _ => true
  | .decode => true
  | .clear => true
  | .findHeader _ => true
  | .classifyFlags _ => true
  | .statusFrame _ _ params => wfParams params
  | .drain => true

end Sys2Proof
end

