-- ==== Sys2Proof/Decode.lean ====
section
/-! DEFINITION. The packets as encodings: recognising which row of spec/opcode_table.json a frame is (30_encoding.md
R84, the partial inverse of 41_instruction_builder.md R113), and the encoder, the byte layouts of R66 to R70 and of the
status packet (R63). The block's own decoder is another thing: `DECODE`, Machine/Ops.lean, which never reads a frame as
an instruction (R80). -/

namespace Sys2Proof

/-- The fields of a frame at the front of a byte sequence, and the bytes after it (R60, R64). -/
structure Packet where
  id : Byte
  len : Byte
  /-- Byte 4: INSTR of an instruction packet, ERRFLAGS of a status packet. -/
  code : Byte
  params : List Byte
  check : Byte
  rest : List Byte
  deriving DecidableEq, Repr

/-- Read a frame by its LEN field: both header bytes `0xFF`, `LEN >= 2`, and all `4 + LEN` bytes there (R64, R79,
R81). The checksum is read, not tested. -/
def parsePacket : List Byte → Option Packet
  | h0 :: h1 :: id :: len :: code :: tail =>
    if h0 = Config.headerByte ∧ h1 = Config.headerByte ∧ Config.minLen ≤ len.toNat then
      match tail.drop (len.toNat - 2) with
      | check :: rest =>
        some { id := id, len := len, code := code, params := tail.take (len.toNat - 2), check := check, rest := rest }
      | [] => none
    else none
  | _ => none

/-- The entries of a width-1 sync-write (R70); refused when a byte is left over. -/
def parseEntries8 : List Byte → Option (List SyncCommand)
  | [] => some []
  | i :: v :: rest => (parseEntries8 rest).map fun cs => { id := i, value := v.toNat } :: cs
  | _ => none

/-- The entries of a width-2 sync-write, low byte first (R40, R70); refused when bytes are left over. -/
def parseEntries16 : List Byte → Option (List SyncCommand)
  | [] => some []
  | i :: lo :: hi :: rest =>
    (parseEntries16 rest).map fun cs => { id := i, value := lo.toNat + 256 * hi.toNat } :: cs
  | _ => none

/-- The parameters of a sync-write packet: addr, width, entries (R70). -/
def parseSync : List Byte → Option Instr
  | addr :: width :: entries =>
    if width = 1 then (parseEntries8 entries).map (Instr.syncWrite addr width)
    else if width = 2 then (parseEntries16 entries).map (Instr.syncWrite addr width)
    else none
  | _ => none

/-- The five instruction kinds, told apart by bytes 2 to 4 as the table's match and mask do (R84). -/
def recogniseInstruction (p : Packet) : Option Instr :=
  if p.len = 0x02 ∧ p.code = 0x01 then some (.ping p.id)
  else if p.len = 0x04 ∧ p.code = 0x02 then
    match p.params with
    | [addr, count] => some (.read p.id addr count)
    | _ => none
  else if p.len = 0x04 ∧ p.code = 0x03 then
    match p.params with
    | [addr, value] => some (.write8 p.id addr value)
    | _ => none
  else if p.len = 0x05 ∧ p.code = 0x03 then
    match p.params with
    | [addr, lo, hi] => some (.write16 p.id addr (hi ++ lo))
    | _ => none
  else if p.id = Config.broadcastId ∧ p.code = 0x83 then parseSync p.params
  else none

/-- The STATUS row: any frame whose checksum is right (the row's constraint; R75, R80). -/
def recogniseStatus (p : Packet) : Option Instr :=
  if Machine.checksum ([p.id, p.len, p.code] ++ p.params) = p.check then some (.status p.id p.code p.params)
  else none

/-- The operation whose packet stands at the front of a byte sequence, and the bytes after the packet; `none` where
no row of the table matches. Every frame matches the STATUS row too (R84), so the instruction rows come first
(log entry 6). -/
def decode (bytes : List Byte) : Option (Instr × List Byte) :=
  match parsePacket bytes with
  | none => none
  | some p => ((recogniseInstruction p).or (recogniseStatus p)).map fun i => (i, p.rest)

/-- The low `n` bytes of a number, least significant byte first. -/
def bytesOfNat : Nat → Nat → List Byte
  | 0, _ => []
  | n + 1, w => BitVec.ofNat 8 w :: bytesOfNat n (w / 256)

/-- The bytes of an instruction given as `nbits` bits of `w`, the first byte in bits 7..0, with zeros above, up to the
longest frame (R64). -/
def tableBytes (nbits w : Nat) : List Byte := bytesOfNat Config.maxFrame (w % 2 ^ nbits)

/-- The instruction the decoder reads from an instruction whose bits are `w`. -/
def decodeTableWord (nbits w : Nat) : Option Instr := (decode (tableBytes nbits w)).map Prod.fst

/-- Header, body, checksum of the body (R60, R75). -/
def sealBody (body : List Byte) : List Byte :=
  [Config.headerByte, Config.headerByte] ++ body ++ [Machine.checksum body]

/-- The packet of an operation, written from the layouts of R66 to R70 and R63; `none` for an operation that has no
wire encoding (R82, R84) and for operands no packet carries (R77, R109, R61). -/
def encode : Instr → Option (List Byte)
  | .ping id => some (sealBody [id, 0x02, 0x01])
  | .read id addr count => some (sealBody [id, 0x04, 0x02, addr, count])
  | .write8 id addr value => some (sealBody [id, 0x04, 0x03, addr, value])
  | .write16 id addr value =>
    some (sealBody [id, 0x05, 0x03, addr, value.extractLsb' 0 8, value.extractLsb' 8 8])
  | .syncWrite addr width commands =>
    if Machine.syncWidthLegal width && decide (Machine.syncLen width commands ≤ Config.maxLen) then
      some (sealBody ([Config.broadcastId, BitVec.ofNat 8 (Machine.syncLen width commands), 0x83, addr, width]
        ++ Machine.syncEntries width commands))
    else none
  | .status id errflags params =>
    if wfParams params then some (sealBody ([id, BitVec.ofNat 8 (Machine.lenField params), errflags] ++ params))
    else none
  | .checksum _ => none
  | .frame _ _ _ => none
  | .push _ => none
  | .decode => none
  | .clear => none
  | .findHeader _ => none
  | .classifyFlags _ => none
  | .statusFrame _ _ _ => none
  | .drain => none

/-- An operation with its sync-write values cut to what a packet carries (R74): the operation a packet gives back
(R113: "up to that truncation"). -/
def Instr.canonical : Instr → Instr
  | .syncWrite addr width commands => .syncWrite addr width (commands.map (Machine.truncateCommand width))
  | .ping id => .ping id
  | .read id addr count => .read id addr count
  | .write8 id addr value => .write8 id addr value
  | .write16 id addr value => .write16 id addr value
  | .status id errflags params => .status id errflags params
  | .checksum bytes => .checksum bytes
  | .frame id code params => .frame id code params
  | .push bytes => .push bytes
  | .decode => .decode
  | .clear => .clear
  | .findHeader s => .findHeader s
  | .classifyFlags e => .classifyFlags e
  | .statusFrame id e params => .statusFrame id e params
  | .drain => .drain

/-- Whether an operation is one of the five builders of ENC (R4, R10), the operations that have an instruction
packet. -/
def Instr.isBuilder : Instr → Bool
  | .ping _ => true
  | .read _ _ _ => true
  | .write8 _ _ _ => true
  | .write16 _ _ _ => true
  | .syncWrite _ _ _ => true
  | .status _ _ _ => false
  | .checksum _ => false
  | .frame _ _ _ => false
  | .push _ => false
  | .decode => false
  | .clear => false
  | .findHeader _ => false
  | .classifyFlags _ => false
  | .statusFrame _ _ _ => false
  | .drain => false

end Sys2Proof
end

