-- ==== Sys2Proof/Machine/State.lean ====
section
/-! DEFINITION. The machine's state as plain data, the error kinds and outcomes it reports, and the state after
reset (10_state.md, 60_exceptions.md R150). -/

namespace Sys2Proof.Machine

/-- `StatusErrorFlags`, the 7-bit fault vector decoded from the error-flag byte: a value, not stored state (R24,
R76). -/
structure StatusErrorFlags where
  inputVoltage : Bool
  angleLimit : Bool
  overheating : Bool
  range : Bool
  checksum : Bool
  overload : Bool
  instruction : Bool
  deriving DecidableEq, Repr

/-- The source's error taxonomy, whole (R150): the kinds the block raises (R151) and the kinds raised outside it,
which no step produces (R152). -/
inductive ErrorKind where
  /-- The transport's receive timer expired; outside the block (R152). -/
  | timeout
  /-- A validated frame with a nonzero error byte: raised by `DECODE` (R132, R151). -/
  | statusFault (flags : StatusErrorFlags)
  /-- The recomputed checksum differs: raised by `DECODE` (R131, R151). -/
  | checksumError
  /-- A header followed by LEN below 2: raised by `DECODE` (R129, R151). -/
  | headerError
  /-- The stream closed; outside the block (R152). -/
  | readingError
  /-- A sync-write width that is neither 1 nor 2: raised by `SYNC_WRITE` (R107, R151). Outside the block also malformed
  parameter extraction (R152). -/
  | decodingError (reason : String)
  /-- The reply came from another device; outside the block (R152). -/
  | idMismatchError (expected actual : Byte)
  /-- The transport could not be opened; outside the block (R152). -/
  | failedOpeningTransport
  /-- A generic transport I/O failure; outside the block (R150, R152, C3). -/
  | ioError
  deriving DecidableEq, Repr

/-- What an operation returns to the agent that invoked it (00_scope.md R10). -/
inductive Reply where
  /-- "Outcome: none" (`PUSH`, R120; `CLEAR`, R139), and before any operation. -/
  | nothing
  /-- A byte sequence: the packet of a builder (R100 to R106), of `STATUS_FRAME` (R124). -/
  | packet (bytes : List Byte)
  /-- One byte: `CHECKSUM` (R90). -/
  | byte (value : Byte)
  /-- An index or none: `FIND_HEADER` (R122). -/
  | position (index : Option Nat)
  /-- A flags record: `CLASSIFY_FLAGS` (R123). -/
  | flags (value : StatusErrorFlags)
  /-- `(Incomplete, consumed)` (R125). -/
  | incomplete (consumed : Nat)
  /-- `(Status{id, params}, consumed)` (R125, R133). -/
  | status (id : Byte) (params : List Byte) (consumed : Nat)
  /-- An error kind, with the number of bytes removed from RXBUF by the operation that raised it (R9, R125, R160). -/
  | raised (kind : ErrorKind) (consumed : Nat)
  deriving DecidableEq, Repr

/-- The invocation of an operation by the agent that makes the move (R11), by its call (R82) or by the bytes of its
packet, which the decoder of Decode.lean reads (R84, R113; log entry 2). A STATUS row is LINK's `PUSH` and HOST's `DECODE`
after it (Instr.agentMoves; log entry 5). -/
inductive Move where
  | call (i : Instr)
  | packet (bytes : List Byte)
  deriving DecidableEq, Repr

/-- The machine's state. `rxbuf` is the spec's, and all of it (R20); the other fields are the model's own. -/
structure State where
  /-- RXBUF, the receive buffer: the earliest received byte at the front (R20, R42). -/
  rxbuf : List Byte
  /-- MODEL's own: what the last operation returned to its invoker (R10; log entry 1). -/
  outcome : Reply
  /-- MODEL's own: the moves of HOST and LINK still to come, the next one first (R10, R11; log entry 2). -/
  moves : List Move
  /-- MODEL's own: the OPEN parameters, which no step changes (R6, R25; log entry 3). -/
  params : Params
  /-- MODEL's own: how many free texts have been drawn (log entry 4). -/
  drawn : Nat
  deriving DecidableEq, Repr

/-- Why the machine would stop with a fault: there is no such reason. Every error of the block is an outcome returned
to the caller, after which every operation is defined (R160, R161). No one raises it (safe; log entry 10). -/
inductive Fault where
  deriving DecidableEq, Repr

/-- Why an invocation has no outcome. -/
inductive Refusal where
  /-- Raised by `exec` for an operation that has no meaning in the model (safe). -/
  | notModelled (mnemonic : String)
  /-- Raised by a `PUSH` (or the arrival of a status packet) beyond a finite `BUF_CAP` (R121, D3: "refused"; safe). -/
  | bufferOverflow
  /-- Raised by a `SYNC_WRITE` of a legal width whose LEN would exceed 255 (R109, D12: "refused"; safe). -/
  | syncWriteTooLong
  /-- Raised for a frame of more than 253 parameters, for which `FRAME` is not defined (R100, R124; safe). -/
  | frameTooLong
  /-- Raised by `step` for a move given as bytes that are no packet of spec/opcode_table.json (R84; safe). -/
  | unrecognisedPacket
  deriving DecidableEq, Repr

/-- The three outcomes of a step of this machine. -/
abbrev StepResult := Host.Outcome State Fault Refusal

/-- The state after reset: RXBUF is empty, and there is nothing else to reset (R31, R180). No operation has returned,
no move is pending, the OPEN parameters have their defaults, no free text has been drawn (log entries 1 to 4). -/
def State.reset : State :=
  { rxbuf := [], outcome := .nothing, moves := [], params := Params.default, drawn := 0 }

end Sys2Proof.Machine
end

