-- ==== Sys2Proof/Machine/Flags.lean ====
section
/-! DEFINITION. The block's only flag computation: the error-flag byte of a status packet read as seven fault flags
(30_encoding.md R76, 42_status_decoder.md R123). The block stores no flags (10_state.md R24). -/

namespace Sys2Proof.Machine

/-- `CLASSIFY_FLAGS(e)`: bit `k` of the byte is the `k`-th flag of the list; bit 7 is dropped (R76, R123, D9). -/
def classifyFlags (e : Byte) : StatusErrorFlags :=
  { inputVoltage := e.getLsbD 0
    angleLimit := e.getLsbD 1
    overheating := e.getLsbD 2
    range := e.getLsbD 3
    checksum := e.getLsbD 4
    overload := e.getLsbD 5
    instruction := e.getLsbD 6 }

end Sys2Proof.Machine
end

