-- ==== Sys2Proof/Machine/Ops.lean ====
section
/-! DEFINITION. The shared operations: building a frame (R100), finding a header (R122), one pass of the decoder over
a buffer (R125), the drain loop (R145), and what they do to the state: answering the invoker, taking an error (R160),
receiving bytes (R120, R121), drawing a free text, fetching the next move. -/

namespace Sys2Proof.Machine

/-- `FRAME(id, code, params)`: header, body, checksum of the body (R100). -/
def frame (id code : Byte) (params : List Byte) : List Byte :=
  let body := [id, BitVec.ofNat 8 (lenField params), code] ++ params
  [Config.headerByte, Config.headerByte] ++ body ++ [checksum body]

/-- `STATUS_FRAME(id, e, params) = FRAME(id, e, params)` (R124). -/
def statusFrame (id e : Byte) (params : List Byte) : List Byte := frame id e params

/-- `FIND_HEADER(s)`: the least index at which two adjacent bytes are both `0xFF` (R122). -/
def findHeader : List Byte → Option Nat
  | [] => none
  | b :: rest =>
    if b = Config.headerByte ∧ rest.head? = some Config.headerByte then some 0
    else (findHeader rest).map (· + 1)

/-- The outcome of one `DECODE` (R125). -/
inductive DecodeOutcome where
  | incomplete
  | status (id : Byte) (params : List Byte)
  | error (kind : ErrorKind)
  deriving DecidableEq, Repr

/-- What one `DECODE` does to a buffer: its outcome, the bytes consumed, the buffer after it (R125). -/
structure DecodeResult where
  outcome : DecodeOutcome
  consumed : Nat
  rest : List Byte
  deriving DecidableEq, Repr

/-- The six steps of `DECODE` over the buffer, tried in order; the first that applies decides (R125 to R133, R157). -/
def decodeBuffer (b : List Byte) : DecodeResult :=
  if b.length < 4 then
    -- step 1 (R126)
    { outcome := .incomplete, consumed := 0, rest := b }
  else if byteAt b 0 ≠ Config.headerByte ∨ byteAt b 1 ≠ Config.headerByte then
    -- step 2 (R127, R128)
    match findHeader b with
    | none => { outcome := .incomplete, consumed := b.length, rest := [] }
    | some p => { outcome := .incomplete, consumed := p, rest := b.drop p }
  else
    let len := (byteAt b 3).toNat
    if len < Config.minLen then
      -- step 3 (R129)
      { outcome := .error .headerError, consumed := 1, rest := b.drop 1 }
    else if b.length < 4 + len then
      -- step 4 (R130)
      { outcome := .incomplete, consumed := 0, rest := b }
    else if checksum (slice b 2 (len + 1)) ≠ byteAt b (len + 3) then
      -- step 5 (R131)
      { outcome := .error .checksumError, consumed := 1, rest := b.drop 1 }
    else if byteAt b 4 ≠ 0 then
      -- step 6, device fault (R132)
      { outcome := .error (.statusFault (classifyFlags (byteAt b 4))), consumed := 4 + len, rest := b.drop (4 + len) }
    else
      -- step 6, success (R133)
      { outcome := .status (byteAt b 2) (slice b 5 (len - 2)), consumed := 4 + len, rest := b.drop (4 + len) }

/-- The loop of `DRAIN`, bounded by `fuel` invocations of `DECODE` (R145). By R137 the bound `len(RXBUF) + 1` is never
reached (log entry 8). -/
def drainLoop : Nat → List Byte → Nat → DecodeResult
  | 0, b, total => { outcome := .incomplete, consumed := total, rest := b }
  | fuel + 1, b, total =>
    let r := decodeBuffer b
    if r.outcome = .incomplete then
      if r.consumed = 0 then { outcome := .incomplete, consumed := total, rest := r.rest }
      else drainLoop fuel r.rest (total + r.consumed)
    else { outcome := r.outcome, consumed := total + r.consumed, rest := r.rest }

/-- `DRAIN()` over a buffer (R145). -/
def drainBuffer (b : List Byte) : DecodeResult := drainLoop (b.length + 1) b 0

/-- Answer the invoker with an outcome and change nothing else (R10). -/
def State.reply (s : State) (r : Reply) : State := { s with outcome := r }

/-- TAKING AN ERROR, the block's only exception mechanism (R160): the error kind is the outcome, and the only state
change is the one the raising step makes to RXBUF, from whose front `consumed` bytes have gone (R151, R161). Nothing is
saved, no mode or mask changes and control goes nowhere; so there is no return from it either: the next operation finds
the block ready (R162). -/
def State.raise (s : State) (kind : ErrorKind) (consumed : Nat) (rest : List Byte) : State :=
  { s with rxbuf := rest, outcome := .raised kind consumed }

/-- Hand the result of a decoder pass to HOST and leave the buffer as the pass left it (R125, R136). -/
def State.deliver (s : State) (r : DecodeResult) : State :=
  match r.outcome with
  | .incomplete => { s with rxbuf := r.rest, outcome := .incomplete r.consumed }
  | .status id params => { s with rxbuf := r.rest, outcome := .status id params r.consumed }
  | .error kind => s.raise kind r.consumed r.rest

/-- Answer with the frame of R100, which is defined for at most 253 parameters (R100). -/
def State.replyFrame (s : State) (id code : Byte) (params : List Byte) : StepResult :=
  if params.length ≤ Config.maxParams then .next (s.reply (.packet (frame id code params)))
  else .refused .frameTooLong

/-- Append received bytes to RXBUF (R120), unless a finite `BUF_CAP` would be exceeded: then the invocation has no
outcome (R121). -/
def State.receive (s : State) (bytes : List Byte) : StepResult :=
  if s.params.fits (s.rxbuf.length + bytes.length) then
    .next { s with rxbuf := s.rxbuf ++ bytes, outcome := .nothing }
  else .refused .bufferOverflow

/-- The next free text, and the state that has drawn it (R107, D13; log entry 4). -/
def State.drawReason (s : State) : String × State :=
  (Config.reasonText s.drawn, { s with drawn := s.drawn + 1 })

/-- The operation a move invokes: the call itself, or the operation whose packet the bytes begin with (R84). -/
def Move.operation : Move → Option Instr
  | .call i => some i
  | .packet bytes => (decode bytes).map Prod.fst

/-- Put an invocation, given as the bytes of its packet, before all others (R11). -/
def State.pushPacketMove (s : State) (bytes : List Byte) : State :=
  { s with moves := .packet bytes :: s.moves }

end Sys2Proof.Machine
end

