-- ==== Sys2Proof/Machine/Chk.lean ====
section
/-! DEFINITION. The checksum family, CHK (40_checksum.md). -/

namespace Sys2Proof.Machine

/-- `CHECKSUM(bytes)` (R90): a total function; no state read or written. -/
def execChecksum (bytes : List Byte) (s : State) : StepResult := .next (s.reply (.byte (checksum bytes)))

end Sys2Proof.Machine
end

