-- ==== Sys2Proof/Machine/Dec.lean ====
section
/-! DEFINITION. The receive side, FBD and DEC (42_status_decoder.md). -/

namespace Sys2Proof.Machine

/-- `PUSH(bytes)` (R120, R121). The bytes are not examined. -/
def execPush (bytes : List Byte) (s : State) : StepResult := s.receive bytes

/-- `DECODE()` (R125). -/
def execDecode (s : State) : StepResult := .next (s.deliver (decodeBuffer s.rxbuf))

/-- `CLEAR()` (R139). -/
def execClear (s : State) : StepResult := .next { s with rxbuf := [], outcome := .nothing }

/-- `DRAIN()` (R145): the composite run to its end in one step (log entry 8). -/
def execDrain (s : State) : StepResult := .next (s.deliver (drainBuffer s.rxbuf))

/-- `FIND_HEADER(s)` (R122): pure. -/
def execFindHeader (bytes : List Byte) (s : State) : StepResult := .next (s.reply (.position (findHeader bytes)))

/-- `CLASSIFY_FLAGS(e)` (R123): pure. -/
def execClassifyFlags (e : Byte) (s : State) : StepResult := .next (s.reply (.flags (classifyFlags e)))

/-- The STATUS row, two moves in one step: LINK pushes a status packet whole (R63, R120, R121), then HOST invokes
`decode()` once (R11, R125; log entry 5). No such packet has more than 253 parameters (R61). -/
def execStatus (id errflags : Byte) (params : List Byte) (s : State) : StepResult :=
  if params.length ≤ Config.maxParams then
    match s.receive (statusFrame id errflags params) with
    | .next s' => .next (s'.deliver (decodeBuffer s'.rxbuf))
    | .fault r => .fault r
    | .refused r => .refused r
  else .refused .frameTooLong

end Sys2Proof.Machine
end

