-- ==== Sys2Proof/Machine/Enc.lean ====
section
/-! DEFINITION. The instruction builder, ENC (41_instruction_builder.md), and the helper `STATUS_FRAME`: pure functions
of their operands, which leave RXBUF unchanged (R112). -/

namespace Sys2Proof.Machine

/-- `PING(id)` (R102). -/
def execPing (id : Byte) (s : State) : StepResult := s.replyFrame id 0x01 []

/-- `READ(id, addr, count)` (R103); no operand is checked (R44, D26). -/
def execRead (id addr count : Byte) (s : State) : StepResult := s.replyFrame id 0x02 [addr, count]

/-- `WRITE8(id, addr, value)` (R104). -/
def execWrite8 (id addr value : Byte) (s : State) : StepResult := s.replyFrame id 0x03 [addr, value]

/-- `WRITE16(id, addr, value)`, low byte first (R40, R105). -/
def execWrite16 (id addr : Byte) (value : Word16) (s : State) : StepResult :=
  s.replyFrame id 0x03 [addr, lo8 value.toNat, hi8 value.toNat]

/-- `SYNC_WRITE(addr, width, commands)` (R106): the width check comes before every other (R107), then the length check
(R109), then the packet is built in list order (R110). -/
def execSyncWrite (addr width : Byte) (commands : List SyncCommand) (s : State) : StepResult :=
  if width ≠ 1 ∧ width ≠ 2 then
    let (reason, s') := s.drawReason
    .next (s'.raise (.decodingError reason) 0 s'.rxbuf)
  else if syncLen width commands > Config.maxLen then .refused .syncWriteTooLong
  else s.replyFrame Config.broadcastId 0x83 ([addr, width] ++ syncEntries width commands)

/-- `FRAME(id, code, params)` (R100). -/
def execFrame (id code : Byte) (params : List Byte) (s : State) : StepResult := s.replyFrame id code params

/-- `STATUS_FRAME(id, e, params)` (R124). -/
def execStatusFrame (id e : Byte) (params : List Byte) (s : State) : StepResult :=
  if params.length ≤ Config.maxParams then .next (s.reply (.packet (statusFrame id e params)))
  else .refused .frameTooLong

end Sys2Proof.Machine
end

