-- ==== Sys2Proof/Machine/Dispatch.lean ====
section
/-! DEFINITION. One arm per row of spec/opcode_table.json, in the table's order. -/

namespace Sys2Proof.Machine

/-- The meaning of an operation. -/
def exec (i : Instr) (s : State) : Host.Outcome State Fault Refusal :=
  match i with
  | .ping id => Sys2Proof.Machine.execPing id s
  | .read id addr count => Sys2Proof.Machine.execRead id addr count s
  | .write8 id addr value => Sys2Proof.Machine.execWrite8 id addr value s
  | .write16 id addr value => Sys2Proof.Machine.execWrite16 id addr value s
  | .syncWrite addr width commands => Sys2Proof.Machine.execSyncWrite addr width commands s
  | .status id errflags params => Sys2Proof.Machine.execStatus id errflags params s
  | .checksum bytes => Sys2Proof.Machine.execChecksum bytes s
  | .frame id code params => Sys2Proof.Machine.execFrame id code params s
  | .push bytes => Sys2Proof.Machine.execPush bytes s
  | .decode => Sys2Proof.Machine.execDecode s
  | .clear => Sys2Proof.Machine.execClear s
  | .findHeader bytes => Sys2Proof.Machine.execFindHeader bytes s
  | .classifyFlags e => Sys2Proof.Machine.execClassifyFlags e s
  | .statusFrame id e params => Sys2Proof.Machine.execStatusFrame id e params s
  | .drain => Sys2Proof.Machine.execDrain s

end Sys2Proof.Machine
end

