-- ==== Sys2Proof/Machine/Step.lean ====
section
/-! DEFINITION. One step: the next move of HOST or LINK is executed (00_scope.md R10, R11). -/

namespace Sys2Proof.Machine

/-- Take the next move and execute its operation, atomically (R10). With no move pending nothing happens: the block "has
no move of its own" (R11). -/
def step (s : State) : Host.Outcome State Fault Refusal :=
  match s.moves with
  | [] => .next s
  | m :: rest =>
    match m.operation with
    | some i => exec i { s with moves := rest }
    | none => .refused .unrecognisedPacket

/-- The state whose next move is the instruction with the bits `w`. -/
def State.withFetchWord (s : State) (nbits w : Nat) : State := s.pushPacketMove (tableBytes nbits w)

end Sys2Proof.Machine
end

