-- ==== Sys2Proof/Machine/Agents.lean ====
section
/-! DEFINITION. Which agent moves (00_scope.md R11): the moves that a row of the opcode table stands for, each with the
agent that makes it. -/

namespace Sys2Proof

/-- The moves of an operation, in order. LINK's only move is `PUSH` (R11, R120, D2); every other operation is invoked by
HOST. The STATUS row is no single move: LINK pushes the packet, and HOST invokes `DECODE` (R63, R120, R125; log entry
5). -/
def Instr.agentMoves : Instr → List (Agent × Instr)
  | .push bytes => [(.link, .push bytes)]
  | .status id errflags params => [(.link, .push (Machine.statusFrame id errflags params)), (.host, .decode)]
  | .ping id => [(.host, .ping id)]
  | .read id addr count => [(.host, .read id addr count)]
  | .write8 id addr value => [(.host, .write8 id addr value)]
  | .write16 id addr value => [(.host, .write16 id addr value)]
  | .syncWrite addr width commands => [(.host, .syncWrite addr width commands)]
  | .checksum bytes => [(.host, .checksum bytes)]
  | .frame id code params => [(.host, .frame id code params)]
  | .decode => [(.host, .decode)]
  | .clear => [(.host, .clear)]
  | .findHeader s => [(.host, .findHeader s)]
  | .classifyFlags e => [(.host, .classifyFlags e)]
  | .statusFrame id e params => [(.host, .statusFrame id e params)]
  | .drain => [(.host, .drain)]

end Sys2Proof
end

