-- ==== Sys2Proof/Machine/Errors.lean ====
section
/-! DEFINITION. The pure functions of an error kind: recoverability, the plane it belongs to, which kinds the block
raises, and the optional codes (60_exceptions.md R150, R151, R154, R163). -/

namespace Sys2Proof.Machine

/-- The recoverability predicate (R163). -/
def ErrorKind.recoverable : ErrorKind → Bool
  | .timeout => true
  | .statusFault _ => true
  | .checksumError => true
  | .headerError => true
  | .readingError => true
  | .decodingError _ => true
  | .idMismatchError _ _ => true
  | .failedOpeningTransport => false
  | .ioError => false

/-- The plane of device-reported errors; the other kinds are transport or protocol errors (R150). -/
def ErrorKind.deviceReported : ErrorKind → Bool
  | .statusFault _ => true
  | .timeout => false
  | .checksumError => false
  | .headerError => false
  | .readingError => false
  | .decodingError _ => false
  | .idMismatchError _ _ => false
  | .failedOpeningTransport => false
  | .ioError => false

/-- The kinds `DECODE` raises (R125, R151). -/
def ErrorKind.raisedByDecode : ErrorKind → Bool
  | .statusFault _ => true
  | .checksumError => true
  | .headerError => true
  | .timeout => false
  | .readingError => false
  | .decodingError _ => false
  | .idMismatchError _ _ => false
  | .failedOpeningTransport => false
  | .ioError => false

/-- The kind `SYNC_WRITE` raises (R107, R151). -/
def ErrorKind.raisedBySyncWrite : ErrorKind → Bool
  | .decodingError _ => true
  | .statusFault _ => false
  | .checksumError => false
  | .headerError => false
  | .timeout => false
  | .readingError => false
  | .idMismatchError _ _ => false
  | .failedOpeningTransport => false
  | .ioError => false

/-- The optional numbers of the kinds, in the order of the source's list (R154, D14); no rule depends on them. -/
def ErrorKind.code : ErrorKind → Nat
  | .timeout => 0
  | .statusFault _ => 1
  | .checksumError => 2
  | .headerError => 3
  | .readingError => 4
  | .decodingError _ => 5
  | .idMismatchError _ _ => 6
  | .failedOpeningTransport => 7
  | .ioError => 8

end Sys2Proof.Machine
end

