-- ==== Sys2Proof/Machine/Phase.lean ====
section
/-! DEFINITION. The decoder's phases, a classification of RXBUF and not stored state (10_state.md R28, 42_status_decoder.md
R135, D6). -/

namespace Sys2Proof.Machine

/-- The source's four state names and the fifth that the spec adds (R135). -/
inductive Phase where
  | awaitingLengthBytes
  | seekingHeader
  | badLength
  | awaitingBody
  | emit
  deriving DecidableEq, Repr

/-- The phase of a buffer (R135). -/
def phase (b : List Byte) : Phase :=
  if b.length < 4 then .awaitingLengthBytes
  else if byteAt b 0 ≠ Config.headerByte ∨ byteAt b 1 ≠ Config.headerByte then .seekingHeader
  else if (byteAt b 3).toNat < Config.minLen then .badLength
  else if b.length < 4 + (byteAt b 3).toNat then .awaitingBody
  else .emit

end Sys2Proof.Machine
end

