-- ==== Sys2Proof/Safety.lean ====
section
/-! DEFINITION. What counts as a good state and a defined invocation, in the terms the statements use. -/

namespace Sys2Proof

open Machine

/-- Whether an invocation has an outcome: the three cases the model refuses are a list too long for LEN (R109), bytes
beyond a finite `BUF_CAP` (R121), and a parameter list no frame carries (R100, R124). -/
def Instr.definedIn (s : State) : Instr → Bool
  | .ping _ => true
  | .read _ _ _ => true
  | .write8 _ _ _ => true
  | .write16 _ _ _ => true
  | .syncWrite _ width commands => !syncWidthLegal width || decide (syncLen width commands ≤ Config.maxLen)
  | .status _ _ params =>
    decide (params.length ≤ Config.maxParams) && s.params.fits (s.rxbuf.length + (params.length + 6))
  | .checksum _ => true
  | .frame _ _ params => decide (params.length ≤ Config.maxParams)
  | .push bytes => s.params.fits (s.rxbuf.length + bytes.length)
  | .decode => true
  | .clear => true
  | .findHeader _ => true
  | .classifyFlags _ => true
  | .statusFrame _ _ params => decide (params.length ≤ Config.maxParams)
  | .drain => true

/-- Whether an operation is of the receive side, the only side that reads or writes RXBUF (R20, R54). -/
def Instr.isReceive : Instr → Bool
  | .status _ _ _ => true
  | .push _ => true
  | .decode => true
  | .clear => true
  | .drain => true
  | .ping _ => false
  | .read _ _ _ => false
  | .write8 _ _ _ => false
  | .write16 _ _ _ => false
  | .syncWrite _ _ _ => false
  | .checksum _ => false
  | .frame _ _ _ => false
  | .findHeader _ => false
  | .classifyFlags _ => false
  | .statusFrame _ _ _ => false

/-- The bytes an operation brings into RXBUF (R52, R120). -/
def Instr.arrivedBytes : Instr → List Byte
  | .push bytes => bytes
  | .status id errflags params => Machine.statusFrame id errflags params
  | .decode => []
  | .clear => []
  | .drain => []
  | .ping _ => []
  | .read _ _ _ => []
  | .write8 _ _ _ => []
  | .write16 _ _ _ => []
  | .syncWrite _ _ _ => []
  | .checksum _ => []
  | .frame _ _ _ => []
  | .findHeader _ => []
  | .classifyFlags _ => []
  | .statusFrame _ _ _ => []

/-- Whether a status packet has the very bytes of an instruction packet (R80): of a PING (LEN 2), a READ (LEN 4), a WRITE8
(LEN 4), a WRITE16 (LEN 5) or a SYNC_WRITE (broadcast ID, a legal width, whole entries), by the layouts of R66 to R70. -/
def sharesInstructionPacket (id e : Byte) (params : List Byte) : Bool :=
  decide (e = 0x01 ∧ params.length = 0) || decide (e = 0x02 ∧ params.length = 2)
  || decide (e = 0x03 ∧ (params.length = 2 ∨ params.length = 3))
  || (match params with
      | _ :: width :: entries =>
        decide (e = 0x83 ∧ id = Config.broadcastId
          ∧ ((width = 1 ∧ entries.length % 2 = 0) ∨ (width = 2 ∧ entries.length % 3 = 0)))
      | _ => false)

end Sys2Proof

namespace Sys2Proof.Machine

/-- A list of operations executed one after another, until one has no next state. -/
def execAll : List Instr → State → StepResult
  | [], s => .next s
  | i :: rest, s =>
    match exec i s with
    | .next t => execAll rest t
    | .fault r => .fault r
    | .refused r => .refused r

/-- The invariants of a built packet: header, LEN, checksum, 6 to 259 bytes (R101). -/
def isFrame (p : List Byte) : Bool :=
  decide (6 ≤ p.length) && decide (p.length ≤ Config.maxFrame)
  && byteAt p 0 == Config.headerByte && byteAt p 1 == Config.headerByte
  && (byteAt p 3).toNat + 4 == p.length
  && byteAt p (p.length - 1) == checksum (slice p 2 (p.length - 3))

/-- The one cause of each error kind of `DECODE`, in the buffer `b` it examined, with the number of bytes it removed and
the payload (R151): a header with LEN 0 or 1; a whole frame with a wrong checksum; a whole frame with a right checksum and
a nonzero error byte, whose flags are reported. -/
def HasDecodeCause (b : List Byte) (kind : ErrorKind) (removed : Nat) : Prop :=
  (kind = .headerError ∧ removed = 1 ∧ ∃ id len tail, b = 0xFF :: 0xFF :: id :: len :: tail ∧ len.toNat < 2)
  ∨ ∃ (id len e check : Byte) (params rest : List Byte),
      b = 0xFF :: 0xFF :: id :: len :: e :: (params ++ check :: rest) ∧ len.toNat = params.length + 2
      ∧ ((kind = .checksumError ∧ removed = 1 ∧ checksum (id :: len :: e :: params) ≠ check)
        ∨ (kind = .statusFault (classifyFlags e) ∧ removed = 4 + len.toNat
          ∧ checksum (id :: len :: e :: params) = check ∧ e ≠ 0))

/-- What every outcome of the block satisfies: a byte sequence handed to HOST is a frame (R101); a Status has at most 253
parameters and came out of at least the bytes of its frame (R61, R134); an error kind is one the block raises, those of
the decoder having consumed at least one byte and the builder's none (R137, R151). -/
def Reply.sound : Reply → Bool
  | .nothing => true
  | .packet p => isFrame p
  | .byte _ => true
  | .position _ => true
  | .flags _ => true
  | .incomplete _ => true
  | .status _ params consumed => decide (params.length ≤ Config.maxParams) && decide (params.length + 6 ≤ consumed)
  | .raised kind consumed =>
    (kind.raisedByDecode && decide (1 ≤ consumed)) || (kind.raisedBySyncWrite && consumed == 0)

/-- The invariant of the machine: the OPEN parameters are legal (R6), RXBUF respects `BUF_CAP` (R20), the last outcome
is one the block can return. -/
def State.Inv (s : State) : Prop :=
  s.params.legal = true ∧ s.params.fits s.rxbuf.length = true ∧ s.outcome.sound = true

/-- The bytes a list of moves brings into RXBUF, in order: the received stream (R52). -/
def receivedStream (moves : List Move) : List Byte :=
  moves.flatMap fun m =>
    match m.operation with
    | some i => Instr.arrivedBytes i
    | none => []

/-- A decoder outcome with `n` more bytes counted as consumed: how `DRAIN` adds up its `DECODE`s (R145). -/
def Reply.addConsumed (n : Nat) : Reply → Reply
  | .incomplete c => .incomplete (n + c)
  | .status id params c => .status id params (n + c)
  | .raised kind c => .raised kind (n + c)
  | .nothing => .nothing
  | .packet p => .packet p
  | .byte b => .byte b
  | .position p => .position p
  | .flags f => .flags f

end Sys2Proof.Machine
end

