-- ==== Sys2Proof/Certificates/Slice0/Obligations.lean ====
section
/-! DEFINITION. The statements for the provers. The docstring of each names the rules of spec/ it formalises, or the
sections it rests on and the log entry where a clause is the model's choice. The fields `outcome`, `moves`, `params` and
`drawn` of State are the model's own (log entries 1 to 4); "the rest of the state is unchanged" is said by giving the
next state as an update of the old one. -/

open Sys2Proof Sys2Proof.Machine

/-! ## CHK -/

/-- R90: the one's complement of the sum modulo 256, for every byte sequence; no state is written. -/
def Obligations.ChecksumIsComplementOfSum : Prop :=
  ∀ (bytes : List Byte) (s : State),
    ∃ c : Byte, exec (.checksum bytes) s = .next { s with outcome := .byte c }
      ∧ c.toNat = 255 - (bytes.map BitVec.toNat).sum % 256
      ∧ ((bytes.map BitVec.toNat).sum + c.toNat) % 256 = 255

/-- 40_checksum.md section 2: the laws of the checksum. -/
def Obligations.ChecksumLaws : Prop :=
  (∀ a b : List Byte, checksum (a ++ b) = checksum (b ++ a))
  ∧ (∀ (a : List Byte) (x : Byte), checksum (a ++ [x]) = checksum a - x)
  ∧ (∀ b : List Byte, checksum (b ++ [checksum b]) = 0)
  ∧ (∀ (a b : List Byte) (x y : Byte), x ≠ y → checksum (a ++ x :: b) ≠ checksum (a ++ y :: b))

/-! ## ENC -/

/-- R66: the PING packet, for every id; the rest of the state is unchanged. -/
def Obligations.PingBuildsItsPacket : Prop :=
  ∀ (id : Byte) (s : State),
    exec (.ping id) s = .next { s with outcome := .packet [0xFF, 0xFF, id, 0x02, 0x01, checksum [id, 0x02, 0x01]] }
    ∧ checksum [id, 0x02, 0x01] = 252 - id

/-- R67: the READ packet, for every operand; the rest of the state is unchanged. -/
def Obligations.ReadBuildsItsPacket : Prop :=
  ∀ (id addr count : Byte) (s : State),
    exec (.read id addr count) s = .next { s with
      outcome := .packet [0xFF, 0xFF, id, 0x04, 0x02, addr, count, checksum [id, 0x04, 0x02, addr, count]] }

/-- R68: the WRITE8 packet, for every operand; it differs from READ's in byte 4 (and so in the checksum over it). -/
def Obligations.Write8BuildsItsPacket : Prop :=
  ∀ (id addr value : Byte) (s : State),
    exec (.write8 id addr value) s = .next { s with
      outcome := .packet [0xFF, 0xFF, id, 0x04, 0x03, addr, value, checksum [id, 0x04, 0x03, addr, value]] }

/-- R69, R73: the WRITE16 packet, low byte of the value first, for every operand. -/
def Obligations.Write16BuildsItsPacket : Prop :=
  ∀ (id addr : Byte) (value : Word16) (s : State),
    ∃ lo hi : Byte, lo.toNat = value.toNat % 256 ∧ hi.toNat = value.toNat / 256
      ∧ exec (.write16 id addr value) s = .next { s with
          outcome := .packet [0xFF, 0xFF, id, 0x05, 0x03, addr, lo, hi, checksum [id, 0x05, 0x03, addr, lo, hi]] }

/-- R70: the SYNC_WRITE packet of a legal width and a list that fits: its length, its fixed bytes, every entry at its
index, low byte first, and the checksum over everything between the header and itself. -/
def Obligations.SyncWriteBuildsItsPacket : Prop :=
  ∀ (addr width : Byte) (commands : List SyncCommand) (s : State),
    (width = 1 ∨ width = 2) → (width.toNat + 1) * commands.length + 4 ≤ 255 →
    ∃ p : List Byte, exec (.syncWrite addr width commands) s = .next { s with outcome := .packet p }
      ∧ p.length = (width.toNat + 1) * commands.length + 8
      ∧ p.take 7 = [0xFF, 0xFF, 0xFE, BitVec.ofNat 8 ((width.toNat + 1) * commands.length + 4), 0x83, addr, width]
      ∧ p.getLast? = some (checksum ((p.drop 2).take (p.length - 3)))
      ∧ (∀ (k : Nat) (c : SyncCommand), commands[k]? = some c →
          p[7 + (width.toNat + 1) * k]? = some c.id
          ∧ p[8 + (width.toNat + 1) * k]? = some (BitVec.ofNat 8 (c.value % 256))
          ∧ (width = 2 → p[9 + (width.toNat + 1) * k]? = some (BitVec.ofNat 8 (c.value / 256 % 256))))

/-- 30_encoding.md section 3 (R74's "The encoded bytes depend only on `value mod 2^(8 * width)`"): cutting every value
of the list to the width changes nothing that a SYNC_WRITE of a legal width does. -/
def Obligations.SyncWriteTruncatesValues : Prop :=
  ∀ (addr width : Byte) (commands : List SyncCommand) (s : State), (width = 1 ∨ width = 2) →
    exec (.syncWrite addr width commands) s
      = exec (.syncWrite addr width
          (commands.map fun c => { id := c.id, value := c.value % 2 ^ (8 * width.toNat) })) s

/-- R107: a width that is neither 1 nor 2 raises `DecodingError(reason)`, for every list, the empty and the overlong
included; no bytes are produced and RXBUF is unchanged; the error is recoverable. The reason is any text (a free value,
log entry 4). -/
def Obligations.SyncWriteWidthError : Prop :=
  ∀ (addr width : Byte) (commands : List SyncCommand) (s : State), width ≠ 1 → width ≠ 2 →
    ∃ (reason : String) (t : State), exec (.syncWrite addr width commands) s = .next t
      ∧ t.outcome = .raised (.decodingError reason) 0 ∧ t.rxbuf = s.rxbuf ∧ t.moves = s.moves ∧ t.params = s.params
      ∧ (ErrorKind.decodingError reason).recoverable = true

/-- 41_instruction_builder.md section 2 (R109, whose refusal is the spec's own decision D12: "This spec decides that
`SYNC_WRITE` with `count > SYNC_MAX_COUNT(width)` is *refused*"): LEN fits one byte exactly when the list has at most
125 commands at width 1, at most 83 at width 2; a longer list is refused, and no other list is. -/
def Obligations.SyncWriteTooLongIsRefused : Prop :=
  ∀ (addr width : Byte) (commands : List SyncCommand) (s : State),
    (width = 1 →
      (((width.toNat + 1) * commands.length + 4 ≤ 255 ↔ commands.length ≤ 125)
      ∧ (exec (.syncWrite addr width commands) s = .refused .syncWriteTooLong ↔ 125 < commands.length)))
    ∧ (width = 2 →
      (((width.toNat + 1) * commands.length + 4 ≤ 255 ↔ commands.length ≤ 83)
      ∧ (exec (.syncWrite addr width commands) s = .refused .syncWriteTooLong ↔ 83 < commands.length)))

/-- R100: `FRAME` for every parameter list it is defined for: header, body, checksum of the body; `len(params) + 6`
bytes; the rest of the state is unchanged. -/
def Obligations.FrameBuildsItsFrame : Prop :=
  ∀ (id code : Byte) (params : List Byte) (s : State), params.length ≤ 253 →
    ∃ lenByte : Byte, lenByte.toNat = params.length + 2
      ∧ exec (.frame id code params) s = .next { s with
          outcome := .packet ([0xFF, 0xFF] ++ ([id, lenByte, code] ++ params) ++ [checksum ([id, lenByte, code] ++ params)]) }
      ∧ ([0xFF, 0xFF] ++ ([id, lenByte, code] ++ params) ++ [checksum ([id, lenByte, code] ++ params)]).length
          = params.length + 6

/-- R124: `STATUS_FRAME(id, e, params)` is `FRAME(id, e, params)`, for every parameter list it is defined for. -/
def Obligations.StatusFrameIsFrame : Prop :=
  ∀ (id e : Byte) (params : List Byte) (s : State), params.length ≤ 253 →
    exec (.statusFrame id e params) s = .next { s with outcome := .packet (frame id e params) }
    ∧ exec (.frame id e params) s = .next { s with outcome := .packet (frame id e params) }

/-- THE MODEL'S CHOICE (log entry 7): a parameter list for which `FRAME` is not defined (R100: "defined only for") is
refused by name, by each of the three operations that would build or receive such a frame. -/
def Obligations.OverlongFrameIsRefused : Prop :=
  ∀ (id e : Byte) (params : List Byte) (s : State), 253 < params.length →
    exec (.frame id e params) s = .refused .frameTooLong
    ∧ exec (.statusFrame id e params) s = .refused .frameTooLong
    ∧ exec (.status id e params) s = .refused .frameTooLong

/-- 41_instruction_builder.md section 1 (R101, which the spec marks as derived from R100): the invariants of every built
packet, whatever the builder and the operands. -/
def Obligations.BuiltPacketsAreFrames : Prop :=
  ∀ (i : Instr) (s t : State) (p : List Byte), i.isBuilder = true →
    exec i s = .next t → t.outcome = .packet p →
    p[0]? = some 0xFF ∧ p[1]? = some 0xFF
    ∧ (∃ len : Byte, p[3]? = some len ∧ len.toNat = p.length - 4)
    ∧ p[p.length - 1]? = some (checksum ((p.drop 2).take (p.length - 3)))
    ∧ 6 ≤ p.length ∧ p.length ≤ 259

/-- R112: a builder reads no state and writes none but its answer: RXBUF is unchanged, equal operands give equal packets
in every state, and a packet is given but for the two cases of R107 and R109. -/
def Obligations.BuildersArePure : Prop :=
  ∀ i : Instr, i.isBuilder = true →
    (∀ s t : State, exec i s = .next t → t.rxbuf = s.rxbuf)
    ∧ (∀ (s t u : State) (p : List Byte), exec i s = .next t → t.outcome = .packet p →
        exec i u = .next { u with outcome := .packet p })
    ∧ (∀ s : State, (∃ p, exec i s = .next { s with outcome := .packet p })
        ∨ (∃ addr width commands, i = .syncWrite addr width commands
            ∧ ((width ≠ 1 ∧ width ≠ 2) ∨ 255 < (width.toNat + 1) * commands.length + 4)))

/-- 41_instruction_builder.md section 3: two builder invocations that give the same packet are the same operation with
the same operands, up to the bits of a sync-write value that no packet carries. -/
def Obligations.BuildersAreInjective : Prop :=
  ∀ (i j : Instr) (s t u v : State) (p : List Byte), i.isBuilder = true → j.isBuilder = true →
    exec i s = .next t → t.outcome = .packet p → exec j u = .next v → v.outcome = .packet p →
    i.canonical = j.canonical

/-! ## Encodings -/

/-- 30_encoding.md section 2 and 41_instruction_builder.md section 2: the packet layouts and the builders agree, on
every operand: `encode` (written from the layouts) gives a packet exactly when the builder answers with it. -/
def Obligations.LayoutsAgreeWithBuilders : Prop :=
  ∀ (i : Instr) (s : State) (p : List Byte), i.isBuilder = true →
    (encode i = some p ↔ exec i s = .next { s with outcome := .packet p })

/-- 30_encoding.md section 7 and 41_instruction_builder.md section 3: recognising an encoded instruction packet,
whatever bytes follow it, gives the operation back, with every operand at every value; a sync-write value comes back
cut to its width, and unchanged where it fits. -/
def Obligations.DecodeOfEncodedBuilder : Prop :=
  ∀ (i : Instr) (p rest : List Byte), i.isBuilder = true → encode i = some p →
    decode (p ++ rest) = some (i.canonical, rest)
    ∧ ((∀ addr width commands, i = .syncWrite addr width commands →
          ∀ c ∈ commands, c.value < 2 ^ (8 * width.toNat)) →
        decode (p ++ rest) = some (i, rest))

/-- 30_encoding.md section 7: every status packet is recognised as that status packet, with every operand at every value
and whatever bytes follow it, but for those that have the very bytes of an instruction packet (30_encoding.md section 4);
such a one is recognised as the builder's operation that has these bytes (log entry 6 says which row is read first). -/
def Obligations.DecodeOfEncodedStatus : Prop :=
  ∀ (id e : Byte) (params p rest : List Byte), encode (.status id e params) = some p →
    (sharesInstructionPacket id e params = false → decode (p ++ rest) = some (.status id e params, rest))
    ∧ (sharesInstructionPacket id e params = true →
        ∃ i : Instr, i.isBuilder = true ∧ encode i = some p ∧ decode (p ++ rest) = some (i, rest))

/-- Packets written out from the spec (95_test_vectors.md section 1 and 3) decode to the operations they stand for. -/
def Obligations.DecodeOfWrittenPackets : Prop :=
  decode [0xFF, 0xFF, 0x01, 0x02, 0x01, 0xFB] = some (.ping 1, [])
  ∧ decode [0xFF, 0xFF, 0x01, 0x04, 0x02, 0x24, 0x02, 0xD2] = some (.read 1 36 2, [])
  ∧ decode [0xFF, 0xFF, 0xFE, 0x04, 0x03, 0x03, 0x01, 0xF6] = some (.write8 0xFE 3 1, [])
  ∧ decode [0xFF, 0xFF, 0xFE, 0x05, 0x03, 0x1E, 0x34, 0x12, 0x95] = some (.write16 0xFE 30 0x1234, [])
  ∧ decode [0xFF, 0xFF, 0xFE, 0x0A, 0x83, 0x1E, 0x02, 0x01, 0x0A, 0x00, 0x02, 0x0A, 0x00, 0x3D]
      = some (.syncWrite 30 2 [⟨1, 10⟩, ⟨2, 10⟩], [])
  ∧ decode [0xFF, 0xFF, 0x01, 0x03, 0x00, 0x20, 0xDB] = some (.status 1 0 [0x20], [])

/-! ## The step -/

/-- A step runs the operation of the next move: the call itself, or the operation decoded from the move's bytes, on the
state with that move gone (00_scope.md section 5; the list of moves is the model's, log entry 2). -/
def Obligations.StepRunsTheDecodedOperation : Prop :=
  (∀ (s : State) (bytes tail : List Byte) (later : List Move) (i : Instr),
    s.moves = .packet bytes :: later → decode bytes = some (i, tail) → step s = exec i { s with moves := later })
  ∧ (∀ (s : State) (later : List Move) (i : Instr),
    s.moves = .call i :: later → step s = exec i { s with moves := later })

/-- THE MODEL'S CHOICE (log entry 2): with no move pending a step changes nothing, since the block "has no move of its
own" (00_scope.md section 5); a move whose bytes are no packet of the table is refused by name (log entry 6). -/
def Obligations.StepWithoutOperation : Prop :=
  (∀ s : State, s.moves = [] → step s = .next s)
  ∧ (∀ (s : State) (bytes : List Byte) (later : List Move),
    s.moves = .packet bytes :: later → decode bytes = none → step s = .refused .unrecognisedPacket)

/-- THE MODEL'S CHOICE (log entry 2): an instruction placed as table bits is what the very next step runs. -/
def Obligations.StepRunsThePlacedWord : Prop :=
  ∀ (s : State) (nbits w : Nat) (i : Instr), decodeTableWord nbits w = some i →
    step (s.withFetchWord nbits w) = exec i s

/-! ## The receive side -/

/-- R120: the bytes are appended, whatever they are, and nothing else happens; within the capacity. -/
def Obligations.PushAppendsBytes : Prop :=
  ∀ (bytes : List Byte) (s : State),
    (∀ cap, s.params.bufCap = some cap → s.rxbuf.length + bytes.length ≤ cap) →
    exec (.push bytes) s = .next { s with rxbuf := s.rxbuf ++ bytes, outcome := .nothing }

/-- 42_status_decoder.md section 1 (R121: "the refusal is this spec's choice", decision D3): with a finite capacity the
push is refused exactly when it goes beyond it, nothing being dropped or split; with an unbounded buffer it never is; a
legal finite capacity holds the longest frame. -/
def Obligations.PushBeyondCapacityIsRefused : Prop :=
  (∀ (bytes : List Byte) (s : State) (cap : Nat), s.params.bufCap = some cap →
    (exec (.push bytes) s = .refused .bufferOverflow ↔ cap < s.rxbuf.length + bytes.length)
    ∧ ((∃ t, exec (.push bytes) s = .next t) ↔ s.rxbuf.length + bytes.length ≤ cap))
  ∧ (∀ (bytes : List Byte) (s : State), s.params.bufCap = none → ∃ t, exec (.push bytes) s = .next t)
  ∧ (∀ (p : Params) (cap : Nat), p.legal = true → p.bufCap = some cap → 259 ≤ cap)

/-- R126: fewer than 4 bytes: `(Incomplete, 0)` and RXBUF unchanged, whatever the bytes are. -/
def Obligations.DecodeWaitsForFourBytes : Prop :=
  ∀ s : State, s.rxbuf.length < 4 → exec .decode s = .next { s with outcome := .incomplete 0 }

/-- R127: the front is not a header and there is one further on: everything before it goes, the outcome is
`Incomplete`, even where a whole frame now stands at the front. -/
def Obligations.DecodeResynchronises : Prop :=
  ∀ (s : State) (p : Nat), 4 ≤ s.rxbuf.length →
    ¬ (s.rxbuf[0]? = some 0xFF ∧ s.rxbuf[1]? = some 0xFF) → findHeader s.rxbuf = some p →
    1 ≤ p ∧ exec .decode s = .next { s with rxbuf := s.rxbuf.drop p, outcome := .incomplete p }
    ∧ (s.rxbuf.drop p)[0]? = some 0xFF ∧ (s.rxbuf.drop p)[1]? = some 0xFF

/-- R128: the front is not a header and there is none anywhere: the whole buffer goes, a last `0xFF` included. -/
def Obligations.DecodeDiscardsBufferWithoutHeader : Prop :=
  ∀ s : State, 4 ≤ s.rxbuf.length →
    ¬ (s.rxbuf[0]? = some 0xFF ∧ s.rxbuf[1]? = some 0xFF) → findHeader s.rxbuf = none →
    exec .decode s = .next { s with rxbuf := [], outcome := .incomplete s.rxbuf.length }

/-- R129: LEN 0 or 1 behind a header: `HeaderError`, exactly one byte gone, without waiting for the rest. -/
def Obligations.DecodeRaisesHeaderError : Prop :=
  ∀ (s : State) (id len : Byte) (tail : List Byte), s.rxbuf = 0xFF :: 0xFF :: id :: len :: tail → len.toNat < 2 →
    exec .decode s = .next { s with rxbuf := 0xFF :: id :: len :: tail, outcome := .raised .headerError 1 }

/-- R130: the frame is not all here: `(Incomplete, 0)` and RXBUF unchanged, whatever LEN is. -/
def Obligations.DecodeWaitsForTheBody : Prop :=
  ∀ (s : State) (id len : Byte) (tail : List Byte), s.rxbuf = 0xFF :: 0xFF :: id :: len :: tail →
    2 ≤ len.toNat → tail.length < len.toNat → exec .decode s = .next { s with outcome := .incomplete 0 }

/-- R131: a whole frame with a wrong checksum: `ChecksumError`, one byte gone, whatever the error byte is. -/
def Obligations.DecodeRaisesChecksumError : Prop :=
  ∀ (s : State) (id len e check : Byte) (params tail : List Byte),
    s.rxbuf = 0xFF :: 0xFF :: id :: len :: e :: (params ++ check :: tail) → len.toNat = params.length + 2 →
    checksum (id :: len :: e :: params) ≠ check →
    exec .decode s = .next { s with rxbuf := 0xFF :: id :: len :: e :: (params ++ check :: tail),
                                    outcome := .raised .checksumError 1 }

/-- R132: a whole frame, the checksum right, the error byte nonzero (`0x80` included): `StatusFault` with the flags of
that byte, the whole frame gone. -/
def Obligations.DecodeRaisesStatusFault : Prop :=
  ∀ (s : State) (id len e check : Byte) (params tail : List Byte),
    s.rxbuf = 0xFF :: 0xFF :: id :: len :: e :: (params ++ check :: tail) → len.toNat = params.length + 2 →
    checksum (id :: len :: e :: params) = check → e ≠ 0 →
    exec .decode s = .next { s with rxbuf := tail,
                                    outcome := .raised (.statusFault (classifyFlags e)) (4 + len.toNat) }

/-- R133: a whole frame, the checksum right, the error byte zero: the Status, the whole frame gone, the bytes after it
kept. -/
def Obligations.DecodeEmitsStatus : Prop :=
  ∀ (s : State) (id len check : Byte) (params tail : List Byte),
    s.rxbuf = 0xFF :: 0xFF :: id :: len :: 0x00 :: (params ++ check :: tail) → len.toNat = params.length + 2 →
    checksum (id :: len :: 0x00 :: params) = check →
    exec .decode s = .next { s with rxbuf := tail, outcome := .status id params (4 + len.toNat) }

/-- 42_status_decoder.md section 5 (R136, which the spec marks as derived from R134): the new RXBUF is `drop(consumed,
old RXBUF)`; `consumed` is 0 exactly in step 1 and step 4, and then a second `DECODE` returns the same; an
`Incomplete` that consumed something comes only from step 2. Nothing else changes. -/
def Obligations.DecodeShrinksTheBuffer : Prop :=
  ∀ s : State, ∃ (r : Reply) (consumed : Nat),
    exec .decode s = .next { s with rxbuf := s.rxbuf.drop consumed, outcome := r }
    ∧ consumed ≤ s.rxbuf.length
    ∧ (r = .incomplete consumed ∨ (∃ id params, r = .status id params consumed) ∨ (∃ kind, r = .raised kind consumed))
    ∧ (consumed = 0 ↔ (phase s.rxbuf = .awaitingLengthBytes ∨ phase s.rxbuf = .awaitingBody))
    ∧ (consumed = 0 → r = .incomplete 0
        ∧ exec .decode { s with rxbuf := s.rxbuf.drop consumed, outcome := r }
            = .next { s with rxbuf := s.rxbuf.drop consumed, outcome := r })
    ∧ (r = .incomplete consumed → consumed ≠ 0 → phase s.rxbuf = .seekingHeader)

/-- 42_status_decoder.md section 5 (R137, whose exact form is the spec's, C2): every decode error consumes,
`HeaderError` and `ChecksumError` 1 byte, `StatusFault` at least 6; and from any state a run of `DECODE`s with no
`PUSH` between reaches `consumed = 0` after at most `len(RXBUF) + 1` of them, in a RXBUF shorter than 4 bytes or
beginning with a header and a legal LEN whose frame is not complete. -/
def Obligations.DecodeMakesProgress : Prop :=
  (∀ (s t : State) (kind : ErrorKind) (consumed : Nat), exec .decode s = .next t → t.outcome = .raised kind consumed →
    ((kind = .headerError ∨ kind = .checksumError) ∧ consumed = 1)
    ∨ ((∃ flags, kind = .statusFault flags) ∧ 6 ≤ consumed))
  ∧ (∀ s : State, ∃ (k : Nat) (t : State), 1 ≤ k ∧ k ≤ s.rxbuf.length + 1
      ∧ Host.Core.run Sys2Proof.core k { s with moves := List.replicate k (.call .decode) } = Host.Outcome.next t
      ∧ t.moves = [] ∧ t.outcome = .incomplete 0
      ∧ (t.rxbuf.length < 4 ∨ phase t.rxbuf = .awaitingBody))

/-- 42_status_decoder.md section 5 (R138, which the spec marks as derived from R125): the result of `DECODE` and the
new RXBUF are a function of the old RXBUF alone, and how `PUSH` chunked the bytes does not matter. -/
def Obligations.DecodeDependsOnTheBufferAlone : Prop :=
  (∀ s u : State, s.rxbuf = u.rxbuf →
    ∃ (r : Reply) (b : List Byte), exec .decode s = .next { s with rxbuf := b, outcome := r }
      ∧ exec .decode u = .next { u with rxbuf := b, outcome := r })
  ∧ (∀ (first second : List Byte) (s t : State), exec (.push (first ++ second)) s = .next t →
    ∃ m, exec (.push first) s = .next m ∧ exec (.push second) m = .next t)

/-- R139: RXBUF is emptied, whatever it held, and is as after reset; what is pushed afterwards is kept. -/
def Obligations.ClearEmptiesTheBuffer : Prop :=
  ∀ s : State, exec .clear s = .next { s with rxbuf := [], outcome := .nothing }
    ∧ ({ s with rxbuf := [], outcome := .nothing } : State).rxbuf = State.reset.rxbuf
    ∧ ∀ (bytes : List Byte) (t : State),
        exec (.push bytes) { s with rxbuf := [], outcome := .nothing } = .next t → t.rxbuf = bytes

/-- 10_state.md section 4 (R31 and R32, the spec's own decision D4 that RXBUF is empty after reset): reset and `CLEAR`
leave the same RXBUF, empty; after either, the first `DECODE` returns `(Incomplete, 0)`, and bytes pushed after either
are kept. The third clause, that a push of any length from the reset state is taken and changes RXBUF only, rests on two
reset values that are the model's choice: the unbounded default of `BUF_CAP` (log entry 3) and the outcome `nothing`
(log entry 1); the fourth rests on neither. -/
def Obligations.ResetAndClearLeaveAnEmptyBuffer : Prop :=
  State.reset.rxbuf = []
  ∧ exec .decode State.reset = .next { State.reset with outcome := .incomplete 0 }
  ∧ (∀ bytes : List Byte, exec (.push bytes) State.reset = .next { State.reset with rxbuf := bytes })
  ∧ (∀ s : State, ∃ t, exec .clear s = .next t ∧ t.rxbuf = State.reset.rxbuf
      ∧ exec .decode t = .next { t with outcome := .incomplete 0 }
      ∧ ∀ (bytes : List Byte) (u : State), exec (.push bytes) t = .next u → u.rxbuf = bytes)

/-- 42_status_decoder.md section 5 (R140, which the spec marks as derived and as its reading D15): decoding a
well-formed status frame returns its ID and parameters, or the flags of its nonzero error byte, and leaves the bytes
after the frame. -/
def Obligations.DecodeOfStatusFrame : Prop :=
  ∀ (s : State) (id e : Byte) (params tail : List Byte), params.length ≤ 253 →
    s.rxbuf = statusFrame id e params ++ tail →
    (e = 0 → exec .decode s
      = .next { s with rxbuf := tail, outcome := .status id params (params.length + 6) })
    ∧ (e ≠ 0 → exec .decode s
      = .next { s with rxbuf := tail, outcome := .raised (.statusFault (classifyFlags e)) (params.length + 6) })

/-- 42_status_decoder.md section 5 (the resynchronisation law, without its remark on chunks): garbage before a frame is
discarded by one `DECODE` and the next one returns the frame; garbage without any `0xFF` is such garbage. -/
def Obligations.FrameBehindGarbageIsFound : Prop :=
  ∀ (s : State) (garbage : List Byte) (id : Byte) (params tail : List Byte),
    garbage ≠ [] → params.length ≤ 253 → s.rxbuf = garbage ++ statusFrame id 0 params ++ tail →
    ((∀ b ∈ garbage, b ≠ 0xFF) → findHeader (garbage ++ statusFrame id 0 params) = some garbage.length)
    ∧ (findHeader (garbage ++ statusFrame id 0 params) = some garbage.length →
        exec .decode s = .next { s with rxbuf := statusFrame id 0 params ++ tail,
                                        outcome := .incomplete garbage.length }
        ∧ exec .decode { s with rxbuf := statusFrame id 0 params ++ tail, outcome := .incomplete garbage.length }
            = .next { s with rxbuf := tail, outcome := .status id params (params.length + 6) })

/-- 42_status_decoder.md section 5 (R142): a good frame inside a corrupt one is found. After a `ChecksumError` or
`HeaderError`, which drops one byte, a frame whose header is the next one in what is left is returned: by the next
`DECODE` if it stands at the front, else by the one after it, which follows the discarding of what stands before it. And
the spec's worked example, a whole corrupt frame of LEN 9 around a good one. -/
def Obligations.FrameInsideCorruptFrameIsFound : Prop :=
  (∀ (s t : State) (kind : ErrorKind) (before : List Byte) (id : Byte) (params tail : List Byte),
    kind = .checksumError ∨ kind = .headerError →
    exec .decode s = .next t → t.outcome = .raised kind 1 → params.length ≤ 253 →
    s.rxbuf.drop 1 = before ++ statusFrame id 0 params ++ tail →
    findHeader (before ++ statusFrame id 0 params) = some before.length →
    (before = [] → exec .decode t = .next { t with rxbuf := tail, outcome := .status id params (params.length + 6) })
    ∧ (before ≠ [] →
        exec .decode t = .next { t with rxbuf := statusFrame id 0 params ++ tail, outcome := .incomplete before.length }
        ∧ exec .decode { t with rxbuf := statusFrame id 0 params ++ tail, outcome := .incomplete before.length }
            = .next { t with rxbuf := tail, outcome := .status id params (params.length + 6) }))
  ∧ ∃ t₁ t₂ t₃ t₄ : State,
    exec .decode { State.reset with rxbuf :=
      [0xFF, 0xFF, 0x02, 0x09, 0x00, 0xFF, 0xFF, 0x01, 0x03, 0x00, 0x20, 0xDB, 0x00] } = .next t₁
    ∧ exec .decode t₁ = .next t₂ ∧ exec .decode t₂ = .next t₃ ∧ exec .decode t₃ = .next t₄
    ∧ t₁.outcome = .raised .checksumError 1 ∧ t₂.outcome = .incomplete 4
    ∧ t₂.rxbuf = [0xFF, 0xFF, 0x01, 0x03, 0x00, 0x20, 0xDB, 0x00]
    ∧ t₃.outcome = .status 1 [0x20] 7 ∧ t₃.rxbuf = [0x00] ∧ t₄.outcome = .incomplete 0

/-- 70_reset_and_hazards.md section 4 (the echo): the packet a builder gave, fed back, decodes as a `StatusFault` whose
flags are those of its instruction code, and is consumed whole. -/
def Obligations.EchoDecodesAsStatusFault : Prop :=
  ∀ (i : Instr) (s t u : State) (p tail : List Byte), i.isBuilder = true →
    exec i s = .next t → t.outcome = .packet p → u.rxbuf = p ++ tail →
    ∃ code : Byte, p[4]? = some code ∧ (code = 0x01 ∨ code = 0x02 ∨ code = 0x03 ∨ code = 0x83)
      ∧ exec .decode u
          = .next { u with rxbuf := tail, outcome := .raised (.statusFault (classifyFlags code)) p.length }

/-- 70_reset_and_hazards.md section 4 (the split header): the first header byte of an arriving frame is discarded with
the garbage before it, and the rest of the frame, which holds no header, is discarded in turn: the frame is lost. -/
def Obligations.SplitHeaderLosesTheFrame : Prop :=
  ∀ (s : State) (garbage rest : List Byte), 3 ≤ garbage.length → s.rxbuf = garbage ++ [0xFF] →
    findHeader s.rxbuf = none → 3 ≤ rest.length → findHeader (0xFF :: rest) = none →
    (∀ cap, s.params.bufCap = some cap → rest.length + 1 ≤ cap) →
    ∃ t₁ t₂ t₃ : State, exec .decode s = .next t₁ ∧ exec (.push (0xFF :: rest)) t₁ = .next t₂
      ∧ exec .decode t₂ = .next t₃ ∧ t₁.outcome = .incomplete (garbage.length + 1) ∧ t₁.rxbuf = []
      ∧ t₃.outcome = .incomplete (rest.length + 1) ∧ t₃.rxbuf = []

/-- R122: the least index of two adjacent bytes `0xFF`; none where there is no such index; pure. -/
def Obligations.FindHeaderGivesTheLeastIndex : Prop :=
  ∀ (bytes : List Byte) (s : State), ∃ r : Option Nat,
    exec (.findHeader bytes) s = .next { s with outcome := .position r }
    ∧ (∀ p : Nat, r = some p ↔
        ((bytes[p]? = some 0xFF ∧ bytes[p + 1]? = some 0xFF)
          ∧ ∀ q < p, ¬ (bytes[q]? = some 0xFF ∧ bytes[q + 1]? = some 0xFF)))
    ∧ (r = none ↔ ∀ p : Nat, ¬ (bytes[p]? = some 0xFF ∧ bytes[p + 1]? = some 0xFF))

/-- 42_status_decoder.md section 2 (R123): the seven flags are the bits 0 to 6 of the byte, in the order of the list;
bit 7 is dropped; pure. (That bits 1 to 6 are these flags is the spec's decision D9, as R76 says.) -/
def Obligations.ClassifyFlagsReadsTheSevenBits : Prop :=
  ∀ (e : Byte) (s : State), ∃ f : StatusErrorFlags,
    exec (.classifyFlags e) s = .next { s with outcome := .flags f }
    ∧ (f.inputVoltage = true ↔ e.toNat % 2 = 1)
    ∧ (f.angleLimit = true ↔ e.toNat / 2 % 2 = 1)
    ∧ (f.overheating = true ↔ e.toNat / 4 % 2 = 1)
    ∧ (f.range = true ↔ e.toNat / 8 % 2 = 1)
    ∧ (f.checksum = true ↔ e.toNat / 16 % 2 = 1)
    ∧ (f.overload = true ↔ e.toNat / 32 % 2 = 1)
    ∧ (f.instruction = true ↔ e.toNat / 64 % 2 = 1)

/-- 42_status_decoder.md section 5 (R145, "a derived composite"): `DRAIN` is its loop: it returns what its first
`DECODE` returns if that is no `Incomplete`, or consumed nothing; otherwise it returns what `DRAIN` returns from
there, with the bytes of the first `DECODE` added to the total. It always ends, and returns `Incomplete` only in the
phases *awaiting-length-bytes* and *awaiting-body*. THE MODEL'S CHOICE: that the composite can be invoked as one
operation (log entry 11) and runs to its end in one step (log entry 8). -/
def Obligations.DrainIsItsLoop : Prop :=
  ∀ s : State, ∃ t u : State, exec .decode s = .next t ∧ exec .drain s = .next u
    ∧ ((∀ consumed, t.outcome ≠ .incomplete consumed) → u = t)
    ∧ (t.outcome = .incomplete 0 → u = t)
    ∧ (∀ consumed, consumed ≠ 0 → t.outcome = .incomplete consumed →
        ∃ v, exec .drain t = .next v ∧ u = { v with outcome := v.outcome.addConsumed consumed })
    ∧ (∀ total, u.outcome = .incomplete total →
        phase u.rxbuf = .awaitingLengthBytes ∨ phase u.rxbuf = .awaitingBody)

/-- THE MODEL'S CHOICE (log entry 5): the STATUS row is the arrival of the packet, LINK's `PUSH` (42_status_decoder.md
section 1), followed by HOST's one `decode()` (its section 3); from an empty RXBUF with the packet within the capacity, that `decode()` returns the packet's Status or its fault. -/
def Obligations.StatusIsArrivalThenDecode : Prop :=
  ∀ (s : State) (id e : Byte) (params : List Byte), params.length ≤ 253 →
    (∀ cap, s.params.bufCap = some cap → s.rxbuf.length + (params.length + 6) ≤ cap) →
    ∃ m t : State, exec (.push (statusFrame id e params)) s = .next m ∧ exec .decode m = .next t
      ∧ exec (.status id e params) s = .next t
      ∧ (s.rxbuf = [] → e = 0 → t = { s with outcome := .status id params (params.length + 6) })
      ∧ (s.rxbuf = [] → e ≠ 0 →
          t = { s with outcome := .raised (.statusFault (classifyFlags e)) (params.length + 6) })

/-- 42_status_decoder.md section 4: the phase of RXBUF decides the outcome of `DECODE` and how much it consumes. -/
def Obligations.PhaseDecidesTheOutcome : Prop :=
  ∀ s : State, ∃ t : State, exec .decode s = .next t
    ∧ (phase s.rxbuf = .awaitingLengthBytes → t = { s with outcome := .incomplete 0 })
    ∧ (phase s.rxbuf = .seekingHeader → ∃ n, 1 ≤ n ∧ t.outcome = .incomplete n
        ∧ (t.rxbuf = [] ∨ (t.rxbuf[0]? = some 0xFF ∧ t.rxbuf[1]? = some 0xFF)))
    ∧ (phase s.rxbuf = .badLength → t.outcome = .raised .headerError 1)
    ∧ (phase s.rxbuf = .awaitingBody → t = { s with outcome := .incomplete 0 })
    ∧ (phase s.rxbuf = .emit → ∀ len : Byte, s.rxbuf[3]? = some len →
        t.outcome = .raised .checksumError 1
        ∨ (∃ flags, t.outcome = .raised (.statusFault flags) (4 + len.toNat))
        ∨ (∃ id params, t.outcome = .status id params (4 + len.toNat) ∧ params.length + 2 = len.toNat))

/-- 95_test_vectors.md section 5 (corruption): changing any one byte of a well-formed status frame from its ID on, other
than the LEN byte, makes `DECODE` report `ChecksumError` and drop one byte. -/
def Obligations.CorruptByteIsDetected : Prop :=
  ∀ (s : State) (id e x : Byte) (params tail : List Byte) (j : Nat), params.length ≤ 253 →
    2 ≤ j → j ≠ 3 → j < (statusFrame id e params).length → (statusFrame id e params)[j]? ≠ some x →
    s.rxbuf = (statusFrame id e params).set j x ++ tail →
    exec .decode s = .next { s with rxbuf := s.rxbuf.drop 1, outcome := .raised .checksumError 1 }

/-! ## The whole machine -/

/-- The invariant is kept by every step: the OPEN parameters stay legal, RXBUF stays within `BUF_CAP`, and every outcome
is one the block can return: every packet it hands out is a well-formed frame. -/
def Obligations.StepKeepsTheMachineSound : Prop :=
  ∀ s t : State, s.Inv → step s = .next t → t.Inv

/-- The state after reset has the invariant. -/
def Obligations.ResetIsSound : Prop := State.reset.Inv

/-- 60_exceptions.md section 4 ("every operation is defined in every state"): no operation stops with a fault, and an
operation has an outcome exactly where `definedIn` says so, that is everywhere but for the refusals of R109 and R121 and
the frames that do not exist (log entry 7). -/
def Obligations.OperationsAreDefined : Prop :=
  ∀ (i : Instr) (s : State),
    ((∃ t, exec i s = .next t) ↔ i.definedIn s = true) ∧ (∀ r : Fault, exec i s ≠ .fault r)

/-- 60_exceptions.md section 1: an error kind that an operation returns is one of those the block raises, for its one
cause: one of the decoder's, by the receive side, for the cause R151 gives it in the bytes examined, with at least one
byte removed from the front of what RXBUF held (the front itself, but for a `DRAIN`, whose earlier passes may have removed
bytes before it); or `DecodingError`, by `SYNC_WRITE` with a width that is neither 1 nor 2, with RXBUF unchanged. Every one
of them is recoverable (60_exceptions.md section 5). -/
def Obligations.RaisedKindsAreTheBlocks : Prop :=
  ∀ (i : Instr) (s t : State) (kind : ErrorKind) (consumed : Nat),
    exec i s = .next t → t.outcome = .raised kind consumed →
    kind.recoverable = true
    ∧ ((kind.raisedByDecode = true ∧ i.isReceive = true ∧ 1 ≤ consumed
        ∧ t.rxbuf = (s.rxbuf ++ i.arrivedBytes).drop consumed
        ∧ ∃ before, before ≤ consumed ∧ (i ≠ .drain → before = 0)
          ∧ HasDecodeCause ((s.rxbuf ++ i.arrivedBytes).drop before) kind (consumed - before))
      ∨ ((∃ reason, kind = .decodingError reason) ∧ consumed = 0 ∧ t.rxbuf = s.rxbuf
        ∧ ∃ addr width commands, i = .syncWrite addr width commands ∧ width ≠ 1 ∧ width ≠ 2))

/-- R163: the recoverable kinds are all but the failure to open the transport and the generic I/O failure. -/
def Obligations.RecoverableKinds : Prop :=
  ErrorKind.timeout.recoverable = true ∧ (∀ flags, (ErrorKind.statusFault flags).recoverable = true)
  ∧ ErrorKind.checksumError.recoverable = true ∧ ErrorKind.headerError.recoverable = true
  ∧ ErrorKind.readingError.recoverable = true ∧ (∀ reason, (ErrorKind.decodingError reason).recoverable = true)
  ∧ (∀ expected actual, (ErrorKind.idMismatchError expected actual).recoverable = true)
  ∧ ErrorKind.failedOpeningTransport.recoverable = false ∧ ErrorKind.ioError.recoverable = false
  ∧ ∀ kind : ErrorKind, (kind.raisedByDecode = true ∨ kind.raisedBySyncWrite = true) → kind.recoverable = true

/-- 10_state.md section 1: no operation changes a byte inside RXBUF or reorders bytes: the new RXBUF is the old one with
the bytes the operation brought at the back and some bytes gone from the front. -/
def Obligations.OperationsKeepBufferOrder : Prop :=
  ∀ (i : Instr) (s t : State), exec i s = .next t → ∃ n, t.rxbuf = (s.rxbuf ++ i.arrivedBytes).drop n

/-- 20_memory.md section 6: at every moment of every run RXBUF is a contiguous stretch of the received stream, up to its
last byte. -/
def Obligations.BufferIsTailOfReceivedStream : Prop :=
  ∀ (n : Nat) (s t : State), Host.Core.run Sys2Proof.core n s = Host.Outcome.next t →
    ∃ k, t.rxbuf = (s.rxbuf ++ receivedStream (s.moves.take n)).drop k

/-- 00_scope.md section 4 and 10_state.md section 1: no step changes a parameter of the machine, and a step takes
exactly the first of the pending moves (their list is the model's, log entries 2 and 3). -/
def Obligations.StepKeepsParameters : Prop :=
  ∀ s t : State, step s = .next t → t.params = s.params ∧ t.moves = s.moves.tail

/-- 20_memory.md section 6: the transmit side and the receive side are related in no way: an operation that is not of
the receive side leaves RXBUF as it is, and does the same whatever RXBUF holds. -/
def Obligations.TransmitSideIgnoresTheBuffer : Prop :=
  ∀ (i : Instr) (s t : State), i.isReceive = false → exec i s = .next t →
    t.rxbuf = s.rxbuf ∧ ∀ b : List Byte, exec i { s with rxbuf := b } = .next { t with rxbuf := b }

/-- THE MODEL'S CHOICE (log entry 4): the count of the texts drawn, the model's own, changes only where a reason is given:
at the width error of `SYNC_WRITE` (41_instruction_builder.md section 2), by one. -/
def Obligations.OnlyTheWidthErrorDrawsAText : Prop :=
  ∀ (i : Instr) (s t : State), exec i s = .next t →
    t.drawn = s.drawn
    ∨ (∃ addr width commands, i = .syncWrite addr width commands ∧ width ≠ 1 ∧ width ≠ 2 ∧ t.drawn = s.drawn + 1)

/-- 00_scope.md section 5 (R11): LINK's only move is `PUSH`. Every operation is its agents' moves, executed in order (for
the STATUS row that is the model's reading, log entry 5: LINK's `PUSH`, then HOST's `DECODE`); a move of LINK appends its
bytes to RXBUF and removes none, and a move of HOST adds none. -/
def Obligations.LinkOnlyPushes : Prop :=
  (∀ i j : Instr, (Agent.link, j) ∈ i.agentMoves → ∃ bytes, j = .push bytes)
  ∧ (∀ (i : Instr) (s : State), (∀ id e params, i = .status id e params → params.length ≤ 253) →
      execAll (i.agentMoves.map Prod.snd) s = exec i s)
  ∧ (∀ (i j : Instr) (s t : State), (Agent.link, j) ∈ i.agentMoves → exec j s = .next t →
      t.rxbuf = s.rxbuf ++ j.arrivedBytes)
  ∧ (∀ (i j : Instr) (s t : State), (Agent.host, j) ∈ i.agentMoves → exec j s = .next t →
      ∃ n, t.rxbuf = s.rxbuf.drop n)
end

