-- ==== Sys2Proof/Laws/Bytes.lean ====
section
/-! SUPPORT. The byte sum, the checksum, slices and the entries of a sync-write. -/

namespace Sys2Proof.Machine

@[simp] theorem byteSum_nil : byteSum [] = 0 := rfl

@[simp] theorem byteSum_cons (b : Byte) (rest : List Byte) : byteSum (b :: rest) = b.toNat + byteSum rest := rfl

@[simp] theorem byteSum_append (a b : List Byte) : byteSum (a ++ b) = byteSum a + byteSum b := by
  induction a with
  | nil => simp
  | cons x a ih => simp [ih, Nat.add_assoc]

theorem byteSum_eq_sum (a : List Byte) : byteSum a = (a.map BitVec.toNat).sum := by
  induction a with
  | nil => rfl
  | cons x a ih => simp [ih]

/-- The checksum as a number: `255 - (sum mod 256)` (R90). -/
theorem checksum_toNat (a : List Byte) : (checksum a).toNat = 255 - byteSum a % 256 := by
  simp [checksum, BitVec.toNat_not]

/-- Two sequences have the same checksum exactly when their sums agree modulo 256. -/
theorem checksum_eq_iff (a b : List Byte) : checksum a = checksum b ↔ byteSum a % 256 = byteSum b % 256 := by
  constructor
  · intro h
    have h' := congrArg BitVec.toNat h
    rw [checksum_toNat, checksum_toNat] at h'
    omega
  · intro h
    apply BitVec.eq_of_toNat_eq
    rw [checksum_toNat, checksum_toNat, h]

@[simp] theorem lo8_toNat (v : Nat) : (lo8 v).toNat = v % 256 := by simp [lo8]

@[simp] theorem hi8_toNat (v : Nat) : (hi8 v).toNat = v / 256 % 256 := by simp [hi8]

/-- A slice of the whole of what lies behind `i` bytes. -/
theorem slice_append (a b c : List Byte) : slice (a ++ (b ++ c)) a.length b.length = b := by
  simp [slice]

@[simp] theorem byteAt_zero (x : Byte) (l : List Byte) : byteAt (x :: l) 0 = x := rfl

@[simp] theorem byteAt_succ (x : Byte) (l : List Byte) (n : Nat) : byteAt (x :: l) (n + 1) = byteAt l n := by
  simp [byteAt]

/-- The byte right behind a sequence. -/
@[simp] theorem byteAt_append_length (a : List Byte) (x : Byte) (b : List Byte) :
    byteAt (a ++ x :: b) a.length = x := by
  simp [byteAt]

theorem getElem?_eq_some_byteAt (l : List Byte) (n : Nat) (h : n < l.length) : l[n]? = some (byteAt l n) := by
  simp [byteAt, h]

theorem syncEntry_length (w : Byte) (c : SyncCommand) (hw : w = 1 ∨ w = 2) :
    (syncEntry w c).length = w.toNat + 1 := by
  rcases hw with rfl | rfl <;> rfl

theorem syncEntries_length (w : Byte) (cs : List SyncCommand) (hw : w = 1 ∨ w = 2) :
    (syncEntries w cs).length = (w.toNat + 1) * cs.length := by
  induction cs with
  | nil => rfl
  | cons c cs ih =>
    simp only [syncEntries, List.length_append, ih, syncEntry_length w c hw, List.length_cons]
    ring

/-- An entry keeps only the low `width` bytes of its value (R74). -/
theorem syncEntry_truncate (w : Byte) (c : SyncCommand) (hw : w = 1 ∨ w = 2) :
    syncEntry w (truncateCommand w c) = syncEntry w c := by
  rcases hw with rfl | rfl
  · have h : lo8 (c.value % 256) = lo8 c.value := by
      apply BitVec.eq_of_toNat_eq
      simp
    simpa [syncEntry, truncateCommand] using h
  · have h : lo8 (c.value % 65536) = lo8 c.value := by
      apply BitVec.eq_of_toNat_eq
      simp only [lo8_toNat]
      omega
    have h' : hi8 (c.value % 65536) = hi8 c.value := by
      apply BitVec.eq_of_toNat_eq
      simp only [hi8_toNat]
      omega
    simpa [syncEntry, truncateCommand] using ⟨h, h'⟩

theorem syncEntries_truncate (w : Byte) (cs : List SyncCommand) (hw : w = 1 ∨ w = 2) :
    syncEntries w (cs.map (truncateCommand w)) = syncEntries w cs := by
  induction cs with
  | nil => rfl
  | cons c cs ih => simp [syncEntries, ih, syncEntry_truncate w c hw]

@[simp] theorem syncWidthLegal_iff (w : Byte) : syncWidthLegal w = true ↔ (w = 1 ∨ w = 2) := by
  simp [syncWidthLegal]

end Sys2Proof.Machine
end

