-- ==== Sys2Proof/Laws/State.lean ====
section
/-! SUPPORT. One lemma per field per update of State. -/

namespace Sys2Proof.Machine

@[simp] theorem State.reply_rxbuf (s : State) (r : Reply) : (s.reply r).rxbuf = s.rxbuf := rfl
@[simp] theorem State.reply_outcome (s : State) (r : Reply) : (s.reply r).outcome = r := rfl
@[simp] theorem State.reply_moves (s : State) (r : Reply) : (s.reply r).moves = s.moves := rfl
@[simp] theorem State.reply_params (s : State) (r : Reply) : (s.reply r).params = s.params := rfl
@[simp] theorem State.reply_drawn (s : State) (r : Reply) : (s.reply r).drawn = s.drawn := rfl

@[simp] theorem State.raise_rxbuf (s : State) (k : ErrorKind) (n : Nat) (b : List Byte) :
    (s.raise k n b).rxbuf = b := rfl
@[simp] theorem State.raise_outcome (s : State) (k : ErrorKind) (n : Nat) (b : List Byte) :
    (s.raise k n b).outcome = .raised k n := rfl
@[simp] theorem State.raise_moves (s : State) (k : ErrorKind) (n : Nat) (b : List Byte) :
    (s.raise k n b).moves = s.moves := rfl
@[simp] theorem State.raise_params (s : State) (k : ErrorKind) (n : Nat) (b : List Byte) :
    (s.raise k n b).params = s.params := rfl
@[simp] theorem State.raise_drawn (s : State) (k : ErrorKind) (n : Nat) (b : List Byte) :
    (s.raise k n b).drawn = s.drawn := rfl

@[simp] theorem State.drawReason_fst (s : State) : s.drawReason.1 = Config.reasonText s.drawn := rfl
@[simp] theorem State.drawReason_rxbuf (s : State) : s.drawReason.2.rxbuf = s.rxbuf := rfl
@[simp] theorem State.drawReason_outcome (s : State) : s.drawReason.2.outcome = s.outcome := rfl
@[simp] theorem State.drawReason_moves (s : State) : s.drawReason.2.moves = s.moves := rfl
@[simp] theorem State.drawReason_params (s : State) : s.drawReason.2.params = s.params := rfl
@[simp] theorem State.drawReason_drawn (s : State) : s.drawReason.2.drawn = s.drawn + 1 := rfl

@[simp] theorem State.pushPacketMove_rxbuf (s : State) (b : List Byte) : (s.pushPacketMove b).rxbuf = s.rxbuf := rfl
@[simp] theorem State.pushPacketMove_outcome (s : State) (b : List Byte) :
    (s.pushPacketMove b).outcome = s.outcome := rfl
@[simp] theorem State.pushPacketMove_moves (s : State) (b : List Byte) :
    (s.pushPacketMove b).moves = .packet b :: s.moves := rfl
@[simp] theorem State.pushPacketMove_params (s : State) (b : List Byte) : (s.pushPacketMove b).params = s.params := rfl
@[simp] theorem State.pushPacketMove_drawn (s : State) (b : List Byte) : (s.pushPacketMove b).drawn = s.drawn := rfl

/-- The outcome that a decoder pass hands to HOST. -/
def DecodeResult.toReply (r : DecodeResult) : Reply :=
  match r.outcome with
  | .incomplete => .incomplete r.consumed
  | .status id params => .status id params r.consumed
  | .error kind => .raised kind r.consumed

/-- `deliver` writes RXBUF and the outcome, and nothing else. -/
theorem State.deliver_eq (s : State) (r : DecodeResult) :
    s.deliver r = { s with rxbuf := r.rest, outcome := r.toReply } := by
  obtain ⟨o, n, b⟩ := r
  cases o <;> rfl

@[simp] theorem State.deliver_rxbuf (s : State) (r : DecodeResult) : (s.deliver r).rxbuf = r.rest := by
  rw [State.deliver_eq]
@[simp] theorem State.deliver_outcome (s : State) (r : DecodeResult) : (s.deliver r).outcome = r.toReply := by
  rw [State.deliver_eq]
@[simp] theorem State.deliver_moves (s : State) (r : DecodeResult) : (s.deliver r).moves = s.moves := by
  rw [State.deliver_eq]
@[simp] theorem State.deliver_params (s : State) (r : DecodeResult) : (s.deliver r).params = s.params := by
  rw [State.deliver_eq]
@[simp] theorem State.deliver_drawn (s : State) (r : DecodeResult) : (s.deliver r).drawn = s.drawn := by
  rw [State.deliver_eq]

end Sys2Proof.Machine
end

