-- ==== Sys2Proof/Laws/Ops.lean ====
section
/-! SUPPORT. For each shared operation, what it can do: cite these instead of unfolding the operation. -/

namespace Sys2Proof.Machine

/-! ### Frames -/

/-- A frame field by field (R100). -/
theorem frame_eq (id code : Byte) (params : List Byte) :
    frame id code params =
      0xFF :: 0xFF :: id :: BitVec.ofNat 8 (params.length + 2) :: code ::
        (params ++ [checksum (id :: BitVec.ofNat 8 (params.length + 2) :: code :: params)]) := rfl

@[simp] theorem frame_length (id code : Byte) (params : List Byte) :
    (frame id code params).length = params.length + 6 := by
  simp [frame_eq]

/-- The LEN byte of a frame whose parameters fit (R61). -/
theorem lenByte_toNat (params : List Byte) (h : params.length ≤ 253) :
    (BitVec.ofNat 8 (params.length + 2)).toNat = params.length + 2 := by
  simp only [BitVec.toNat_ofNat]
  omega

/-- `replyFrame` answers with the frame exactly when the parameters fit (R100). -/
theorem State.replyFrame_eq (s : State) (id code : Byte) (params : List Byte) :
    s.replyFrame id code params =
      if params.length ≤ 253 then .next { s with outcome := .packet (frame id code params) }
      else .refused .frameTooLong := rfl

/-- `replyFrame` never faults; if it answers, it has written the outcome and nothing else. -/
theorem State.replyFrame_next {s t : State} {id code : Byte} {params : List Byte}
    (h : s.replyFrame id code params = .next t) :
    params.length ≤ 253 ∧ t = { s with outcome := .packet (frame id code params) } := by
  rw [State.replyFrame_eq] at h
  split at h
  · exact ⟨‹_›, by cases h; rfl⟩
  · cases h

/-- A frame whose parameters fit satisfies the invariants of a built packet (R101). -/
theorem isFrame_frame (id code : Byte) (params : List Byte) (h : params.length ≤ 253) :
    isFrame (frame id code params) = true := by
  have hl := lenByte_toNat params h
  have hc : byteAt (frame id code params) (params.length + 5)
      = checksum (id :: BitVec.ofNat 8 (params.length + 2) :: code :: params) := by
    rw [frame_eq]
    simp only [byteAt_succ, byteAt_append_length]
  have hs : slice (frame id code params) 2 (params.length + 3)
      = id :: BitVec.ofNat 8 (params.length + 2) :: code :: params := by
    rw [frame_eq]
    simp [slice]
  have h3 : byteAt (frame id code params) 3 = BitVec.ofNat 8 (params.length + 2) := rfl
  have h0 : byteAt (frame id code params) 0 = 0xFF := rfl
  have h1 : byteAt (frame id code params) 1 = 0xFF := rfl
  simp only [isFrame, frame_length, Config.maxFrame, Config.headerByte, h0, h1, h3, hl,
    show params.length + 6 - 1 = params.length + 5 from rfl, hc,
    show params.length + 6 - 3 = params.length + 3 from rfl, hs]
  simp
  omega

/-! ### Receiving -/

theorem Params.fits_iff (p : Params) (n : Nat) : p.fits n = true ↔ ∀ cap, p.bufCap = some cap → n ≤ cap := by
  unfold Params.fits
  cases p.bufCap <;> simp

theorem Params.fits_mono {p : Params} {m n : Nat} (h : p.fits n = true) (hmn : m ≤ n) : p.fits m = true := by
  rw [Params.fits_iff] at h ⊢
  exact fun cap hc => hmn.trans (h cap hc)

/-- `receive` appends within the capacity and is refused beyond it (R120, R121). -/
theorem State.receive_eq (s : State) (bytes : List Byte) :
    s.receive bytes =
      if s.params.fits (s.rxbuf.length + bytes.length) = true then
        .next { s with rxbuf := s.rxbuf ++ bytes, outcome := .nothing }
      else .refused .bufferOverflow := rfl

theorem State.receive_next {s t : State} {bytes : List Byte} (h : s.receive bytes = .next t) :
    s.params.fits (s.rxbuf.length + bytes.length) = true
      ∧ t = { s with rxbuf := s.rxbuf ++ bytes, outcome := .nothing } := by
  rw [State.receive_eq] at h
  split at h
  · exact ⟨‹_›, by cases h; rfl⟩
  · cases h

/-! ### Finding a header -/

/-- The front of a sequence is a header. -/
theorem header_front_iff (b : Byte) (rest : List Byte) :
    (b = Config.headerByte ∧ rest.head? = some Config.headerByte)
      ↔ ((b :: rest)[0]? = some 0xFF ∧ (b :: rest)[1]? = some 0xFF) := by
  cases rest <;> simp

/-- `FIND_HEADER` gives the least index of two adjacent `0xFF` (R122). -/
theorem findHeader_eq_some_iff (l : List Byte) (p : Nat) :
    findHeader l = some p ↔
      ((l[p]? = some 0xFF ∧ l[p + 1]? = some 0xFF) ∧ ∀ q < p, ¬ (l[q]? = some 0xFF ∧ l[q + 1]? = some 0xFF)) := by
  induction l generalizing p with
  | nil => simp [findHeader]
  | cons b rest ih =>
    rw [findHeader]
    split
    · next h =>
      rw [header_front_iff] at h
      constructor
      · intro hp
        obtain rfl : 0 = p := by simpa using hp
        exact ⟨h, by simp⟩
      · rintro ⟨-, hq⟩
        rcases Nat.eq_zero_or_pos p with rfl | hp
        · rfl
        · exact absurd h (hq 0 hp)
    · next h =>
      rw [header_front_iff] at h
      cases p with
      | zero =>
        constructor
        · intro hp
          simp at hp
        · exact fun hp => absurd hp.1 h
      | succ p =>
        have hs : (findHeader rest).map (· + 1) = some (p + 1) ↔ findHeader rest = some p := by
          cases findHeader rest <;> simp
        rw [hs, ih]
        constructor
        · rintro ⟨h1, h2⟩
          refine ⟨by simpa using h1, fun q hq => ?_⟩
          cases q with
          | zero => exact h
          | succ q => simpa using h2 q (by omega)
        · rintro ⟨h1, h2⟩
          exact ⟨by simpa using h1, fun q hq => by simpa using h2 (q + 1) (by omega)⟩

/-- `FIND_HEADER` gives none exactly where there is no such index (R122). -/
theorem findHeader_eq_none_iff (l : List Byte) :
    findHeader l = none ↔ ∀ p : Nat, ¬ (l[p]? = some 0xFF ∧ l[p + 1]? = some 0xFF) := by
  induction l with
  | nil => simp [findHeader]
  | cons b rest ih =>
    rw [findHeader]
    split
    · next h =>
      rw [header_front_iff] at h
      constructor
      · intro hp
        cases hp
      · exact fun hp => absurd h (hp 0)
    · next h =>
      rw [header_front_iff] at h
      rw [Option.map_eq_none_iff, ih]
      constructor
      · intro hp p
        cases p with
        | zero => exact h
        | succ p => simpa using hp p
      · exact fun hp p => by simpa using hp (p + 1)

/-- A header index has its second byte inside the sequence. -/
theorem findHeader_lt {l : List Byte} {p : Nat} (h : findHeader l = some p) : p + 1 < l.length := by
  have := ((findHeader_eq_some_iff l p).1 h).1.2
  exact (List.getElem?_eq_some_iff.1 this).1

/-! ### One pass of the decoder -/

/-- Step 1 (R126). -/
theorem decodeBuffer_short {b : List Byte} (h : b.length < 4) :
    decodeBuffer b = { outcome := .incomplete, consumed := 0, rest := b } := by
  simp [decodeBuffer, h]

/-- The front is a header, in the two ways of saying it. -/
theorem not_header_iff {b : List Byte} (h : 4 ≤ b.length) :
    (byteAt b 0 ≠ Config.headerByte ∨ byteAt b 1 ≠ Config.headerByte)
      ↔ ¬ (b[0]? = some 0xFF ∧ b[1]? = some 0xFF) := by
  rw [getElem?_eq_some_byteAt b 0 (by omega), getElem?_eq_some_byteAt b 1 (by omega)]
  simp [Decidable.imp_iff_not_or]

/-- Step 2, a header further on (R127). -/
theorem decodeBuffer_resync {b : List Byte} {p : Nat} (h : 4 ≤ b.length)
    (hf : ¬ (b[0]? = some 0xFF ∧ b[1]? = some 0xFF)) (hp : findHeader b = some p) :
    decodeBuffer b = { outcome := .incomplete, consumed := p, rest := b.drop p } := by
  rw [decodeBuffer, if_neg (by omega), if_pos ((not_header_iff h).2 hf), hp]

/-- Step 2, no header anywhere (R128). -/
theorem decodeBuffer_discard {b : List Byte} (h : 4 ≤ b.length)
    (hf : ¬ (b[0]? = some 0xFF ∧ b[1]? = some 0xFF)) (hp : findHeader b = none) :
    decodeBuffer b = { outcome := .incomplete, consumed := b.length, rest := [] } := by
  rw [decodeBuffer, if_neg (by omega), if_pos ((not_header_iff h).2 hf), hp]

/-- Steps 3 to 6, the buffer beginning with a header and two more bytes (R129 to R133). -/
theorem decodeBuffer_header (id len : Byte) (tail : List Byte) :
    decodeBuffer (0xFF :: 0xFF :: id :: len :: tail) =
      if len.toNat < 2 then
        { outcome := .error .headerError, consumed := 1, rest := 0xFF :: id :: len :: tail }
      else if tail.length < len.toNat then
        { outcome := .incomplete, consumed := 0, rest := 0xFF :: 0xFF :: id :: len :: tail }
      else if checksum (id :: len :: tail.take (len.toNat - 1)) ≠ byteAt tail (len.toNat - 1) then
        { outcome := .error .checksumError, consumed := 1, rest := 0xFF :: id :: len :: tail }
      else if byteAt tail 0 ≠ 0 then
        { outcome := .error (.statusFault (classifyFlags (byteAt tail 0))), consumed := 4 + len.toNat,
          rest := tail.drop len.toNat }
      else
        { outcome := .status id ((tail.drop 1).take (len.toNat - 2)), consumed := 4 + len.toNat,
          rest := tail.drop len.toNat } := by
  have h0 : byteAt (0xFF :: 0xFF :: id :: len :: tail) 0 = 0xFF := rfl
  have h1 : byteAt (0xFF :: 0xFF :: id :: len :: tail) 1 = 0xFF := rfl
  have h2 : byteAt (0xFF :: 0xFF :: id :: len :: tail) 2 = id := rfl
  have h3 : byteAt (0xFF :: 0xFF :: id :: len :: tail) 3 = len := rfl
  have h4 : byteAt (0xFF :: 0xFF :: id :: len :: tail) 4 = byteAt tail 0 := by simp
  rw [decodeBuffer, if_neg (by simp), if_neg (by rw [h0, h1]; decide)]
  simp only [h2, h3, h4]
  by_cases hl : len.toNat < 2
  · simp [hl]
  rw [if_neg hl, if_neg hl]
  have hlt : (0xFF :: 0xFF :: id :: len :: tail).length < 4 + len.toNat ↔ tail.length < len.toNat := by
    simp only [List.length_cons]
    omega
  by_cases hb : tail.length < len.toNat
  · rw [if_pos (hlt.2 hb), if_pos hb]
  rw [if_neg (mt hlt.1 hb), if_neg hb]
  obtain ⟨n, hn⟩ : ∃ n, len.toNat = n + 2 := ⟨len.toNat - 2, by omega⟩
  have hs : slice (0xFF :: 0xFF :: id :: len :: tail) 2 (len.toNat + 1)
      = id :: len :: tail.take (len.toNat - 1) := by
    rw [hn]
    simp [slice]
  have hk : byteAt (0xFF :: 0xFF :: id :: len :: tail) (len.toNat + 3) = byteAt tail (len.toNat - 1) := by
    rw [hn]
    simp
  have hd : (0xFF :: 0xFF :: id :: len :: tail).drop (4 + len.toNat) = tail.drop len.toNat := by
    rw [Nat.add_comm]
    rfl
  have hp : slice (0xFF :: 0xFF :: id :: len :: tail) 5 (len.toNat - 2) = (tail.drop 1).take (len.toNat - 2) := rfl
  rw [hs, hk, hd, hp]
  rfl

/-- A buffer of at least 4 bytes that begins with a header, taken apart. -/
theorem exists_header {b : List Byte} (h : 4 ≤ b.length) (hf : b[0]? = some 0xFF ∧ b[1]? = some 0xFF) :
    ∃ id len tail, b = 0xFF :: 0xFF :: id :: len :: tail := by
  match b, h with
  | x :: y :: id :: len :: tail, _ =>
    simp only [List.getElem?_cons_zero, List.getElem?_cons_succ, Option.some.injEq] at hf
    exact ⟨id, len, tail, by rw [hf.1, hf.2]⟩

/-- What stands behind a whole frame's LEN byte: the error byte, the parameters, the checksum, the bytes after. -/
theorem exists_body {len : Byte} {tail : List Byte} (h2 : 2 ≤ len.toNat) (h : len.toNat ≤ tail.length) :
    ∃ e params check rest, tail = e :: (params ++ check :: rest) ∧ len.toNat = params.length + 2 := by
  cases tail with
  | nil =>
    simp at h
    omega
  | cons e tail =>
    simp only [List.length_cons] at h
    have hd : len.toNat - 2 < tail.length := by omega
    refine ⟨e, tail.take (len.toNat - 2), tail[len.toNat - 2], tail.drop (len.toNat - 2 + 1), ?_, ?_⟩
    · rw [List.getElem_cons_drop, List.take_append_drop]
    · rw [List.length_take]
      omega

/-- Steps 5 and 6: a whole frame at the front, field by field (R131 to R133). -/
theorem decodeBuffer_frame (id len e check : Byte) (params rest : List Byte) (h : len.toNat = params.length + 2) :
    decodeBuffer (0xFF :: 0xFF :: id :: len :: e :: (params ++ check :: rest)) =
      if checksum (id :: len :: e :: params) ≠ check then
        { outcome := .error .checksumError, consumed := 1,
          rest := 0xFF :: id :: len :: e :: (params ++ check :: rest) }
      else if e ≠ 0 then
        { outcome := .error (.statusFault (classifyFlags e)), consumed := 4 + len.toNat, rest := rest }
      else { outcome := .status id params, consumed := 4 + len.toNat, rest := rest } := by
  rw [decodeBuffer_header, if_neg (by omega),
    if_neg (by simp only [List.length_cons, List.length_append]; omega), h]
  have ht : (e :: (params ++ check :: rest)).take (params.length + 2 - 1) = e :: params := by simp
  have hk : byteAt (e :: (params ++ check :: rest)) (params.length + 2 - 1) = check := by
    simp only [show params.length + 2 - 1 = params.length + 1 from rfl,
      byteAt_succ, byteAt_append_length]
  have hd : (e :: (params ++ check :: rest)).drop (params.length + 2) = rest := by simp
  have hp : ((e :: (params ++ check :: rest)).drop 1).take (params.length + 2 - 2) = params := by simp
  rw [ht, hk, hd, hp]
  rfl

/-- THE CASES of one pass of the decoder: the six steps, each with what holds of the buffer (R134). -/
theorem decodeBuffer_cases (b : List Byte) :
    (b.length < 4 ∧ decodeBuffer b = { outcome := .incomplete, consumed := 0, rest := b })
    ∨ (4 ≤ b.length ∧ ¬ (b[0]? = some 0xFF ∧ b[1]? = some 0xFF) ∧ findHeader b = none
        ∧ decodeBuffer b = { outcome := .incomplete, consumed := b.length, rest := [] })
    ∨ (∃ p, 4 ≤ b.length ∧ ¬ (b[0]? = some 0xFF ∧ b[1]? = some 0xFF) ∧ findHeader b = some p
        ∧ decodeBuffer b = { outcome := .incomplete, consumed := p, rest := b.drop p })
    ∨ (∃ id len tail, b = 0xFF :: 0xFF :: id :: len :: tail ∧ len.toNat < 2
        ∧ decodeBuffer b = { outcome := .error .headerError, consumed := 1, rest := b.drop 1 })
    ∨ (∃ id len tail, b = 0xFF :: 0xFF :: id :: len :: tail ∧ 2 ≤ len.toNat ∧ tail.length < len.toNat
        ∧ decodeBuffer b = { outcome := .incomplete, consumed := 0, rest := b })
    ∨ (∃ id len e params check rest, b = 0xFF :: 0xFF :: id :: len :: e :: (params ++ check :: rest)
        ∧ len.toNat = params.length + 2 ∧ checksum (id :: len :: e :: params) ≠ check
        ∧ decodeBuffer b = { outcome := .error .checksumError, consumed := 1, rest := b.drop 1 })
    ∨ (∃ id len e params check rest, b = 0xFF :: 0xFF :: id :: len :: e :: (params ++ check :: rest)
        ∧ len.toNat = params.length + 2 ∧ checksum (id :: len :: e :: params) = check ∧ e ≠ 0
        ∧ decodeBuffer b = { outcome := .error (.statusFault (classifyFlags e)), consumed := 4 + len.toNat,
                             rest := rest })
    ∨ (∃ id len params check rest, b = 0xFF :: 0xFF :: id :: len :: 0 :: (params ++ check :: rest)
        ∧ len.toNat = params.length + 2 ∧ checksum (id :: len :: 0 :: params) = check
        ∧ decodeBuffer b = { outcome := .status id params, consumed := 4 + len.toNat, rest := rest }) := by
  by_cases h4 : b.length < 4
  · exact .inl ⟨h4, decodeBuffer_short h4⟩
  have h4' : 4 ≤ b.length := by omega
  by_cases hf : b[0]? = some 0xFF ∧ b[1]? = some 0xFF
  · obtain ⟨id, len, tail, rfl⟩ := exists_header h4' hf
    by_cases hl : len.toNat < 2
    · exact .inr (.inr (.inr (.inl ⟨id, len, tail, rfl, hl, by rw [decodeBuffer_header, if_pos hl]; rfl⟩)))
    by_cases ht : tail.length < len.toNat
    · exact .inr (.inr (.inr (.inr (.inl ⟨id, len, tail, rfl, by omega, ht, by
        rw [decodeBuffer_header, if_neg hl, if_pos ht]⟩))))
    obtain ⟨e, params, check, rest, rfl, hlen⟩ := exists_body (tail := tail) (by omega : 2 ≤ len.toNat) (by omega)
    by_cases hc : checksum (id :: len :: e :: params) = check
    · by_cases he : e = 0
      · subst he
        exact .inr (.inr (.inr (.inr (.inr (.inr (.inr ⟨id, len, params, check, rest, rfl, hlen, hc, by
          rw [decodeBuffer_frame _ _ _ _ _ _ hlen, if_neg (by simpa using hc), if_neg (by simp)]⟩))))))
      · exact .inr (.inr (.inr (.inr (.inr (.inr (.inl ⟨id, len, e, params, check, rest, rfl, hlen, hc, he, by
          rw [decodeBuffer_frame _ _ _ _ _ _ hlen, if_neg (by simpa using hc), if_pos he]⟩))))))
    · exact .inr (.inr (.inr (.inr (.inr (.inl ⟨id, len, e, params, check, rest, rfl, hlen, hc, by
        rw [decodeBuffer_frame _ _ _ _ _ _ hlen, if_pos hc]; rfl⟩)))))
  · cases hp : findHeader b with
    | none => exact .inr (.inl ⟨h4', hf, rfl, decodeBuffer_discard h4' hf hp⟩)
    | some p => exact .inr (.inr (.inl ⟨p, h4', hf, rfl, decodeBuffer_resync h4' hf hp⟩))

/-- A header index of a buffer whose front is no header is not 0. -/
theorem findHeader_pos {b : List Byte} {p : Nat} (hf : ¬ (b[0]? = some 0xFF ∧ b[1]? = some 0xFF))
    (hp : findHeader b = some p) : 1 ≤ p := by
  rcases Nat.eq_zero_or_pos p with rfl | h
  · exact absurd ((findHeader_eq_some_iff b 0).1 hp).1 hf
  · exact h

/-- A pass leaves the buffer less the bytes it consumed from the front (R136). -/
theorem decodeBuffer_rest (b : List Byte) :
    (decodeBuffer b).rest = b.drop (decodeBuffer b).consumed ∧ (decodeBuffer b).consumed ≤ b.length := by
  rcases decodeBuffer_cases b with ⟨-, h⟩ | ⟨-, -, -, h⟩ | ⟨p, -, -, hp, h⟩ | ⟨_, _, _, rfl, -, h⟩
    | ⟨_, _, _, rfl, -, -, h⟩ | ⟨_, _, _, _, _, _, rfl, -, -, h⟩ | ⟨_, len, _, params, _, _, rfl, hl, -, -, h⟩
    | ⟨_, len, params, _, _, rfl, hl, -, h⟩
  · simp [h]
  · simp [h]
  · have := findHeader_lt hp
    simp only [h, true_and]
    omega
  · rw [h]; simp
  · rw [h]; simp
  · rw [h]; simp
  · rw [h, hl, show 4 + (params.length + 2) = params.length + 6 by omega]
    simp
  · rw [h, hl, show 4 + (params.length + 2) = params.length + 6 by omega]
    simp

/-- A pass over a whole status frame (R140). -/
theorem decodeBuffer_statusFrame (id e : Byte) (params tail : List Byte) (h : params.length ≤ 253) :
    decodeBuffer (statusFrame id e params ++ tail) =
      if e ≠ 0 then
        { outcome := .error (.statusFault (classifyFlags e)), consumed := params.length + 6, rest := tail }
      else { outcome := .status id params, consumed := params.length + 6, rest := tail } := by
  have hl := lenByte_toNat params h
  rw [statusFrame, frame_eq]
  simp only [List.cons_append, List.append_assoc, List.nil_append]
  rw [decodeBuffer_frame _ _ _ _ _ _ hl, if_neg (by simp), hl,
    show 4 + (params.length + 2) = params.length + 6 by omega]

/-! ### Phases -/

/-- The phase of a buffer that begins with a header (R135). -/
theorem phase_header (id len : Byte) (tail : List Byte) :
    phase (0xFF :: 0xFF :: id :: len :: tail) =
      if len.toNat < 2 then .badLength else if tail.length < len.toNat then .awaitingBody else .emit := by
  have h3 : byteAt (0xFF :: 0xFF :: id :: len :: tail) 3 = len := rfl
  have h0 : byteAt (0xFF :: 0xFF :: id :: len :: tail) 0 = 0xFF := rfl
  have h1 : byteAt (0xFF :: 0xFF :: id :: len :: tail) 1 = 0xFF := rfl
  have hlt : (0xFF :: 0xFF :: id :: len :: tail).length < 4 + len.toNat ↔ tail.length < len.toNat := by
    simp only [List.length_cons]
    omega
  rw [phase, if_neg (by simp), if_neg (by rw [h0, h1]; decide), h3]
  simp only [hlt, Config.minLen]

theorem phase_short {b : List Byte} (h : b.length < 4) : phase b = .awaitingLengthBytes := by
  simp [phase, h]

theorem phase_seeking {b : List Byte} (h : 4 ≤ b.length) (hf : ¬ (b[0]? = some 0xFF ∧ b[1]? = some 0xFF)) :
    phase b = .seekingHeader := by
  rw [phase, if_neg (by omega), if_pos ((not_header_iff h).2 hf)]

/-- The phase of a buffer with a whole frame at the front is *emit*. -/
theorem phase_frame (id len e check : Byte) (params rest : List Byte) (h : len.toNat = params.length + 2) :
    phase (0xFF :: 0xFF :: id :: len :: e :: (params ++ check :: rest)) = .emit := by
  rw [phase_header, if_neg (by omega), if_neg (by simp only [List.length_cons, List.length_append]; omega)]

/-! ### The drain loop -/

/-- With enough fuel the loop is its own first pass and then itself (R145). -/
theorem drainLoop_eq (fuel : Nat) (b : List Byte) (total : Nat) :
    drainLoop (fuel + 1) b total =
      if (decodeBuffer b).outcome = .incomplete then
        if (decodeBuffer b).consumed = 0 then
          { outcome := .incomplete, consumed := total, rest := (decodeBuffer b).rest }
        else drainLoop fuel (decodeBuffer b).rest (total + (decodeBuffer b).consumed)
      else { outcome := (decodeBuffer b).outcome, consumed := total + (decodeBuffer b).consumed,
             rest := (decodeBuffer b).rest } := rfl

/-- The bytes already consumed are carried along as a summand (R145). -/
theorem drainLoop_total (fuel : Nat) (b : List Byte) (total : Nat) :
    drainLoop fuel b total = { drainLoop fuel b 0 with consumed := total + (drainLoop fuel b 0).consumed } := by
  induction fuel generalizing b total with
  | zero => rfl
  | succ fuel ih =>
    rw [drainLoop_eq, drainLoop_eq]
    split
    · split
      · rfl
      · rw [ih, ih _ (0 + _)]
        simp [Nat.add_assoc]
    · simp

/-- Any fuel above the length of the buffer gives the same result: the bound is never reached (R137). -/
theorem drainLoop_fuel (fuel fuel' : Nat) (b : List Byte) (total : Nat) (h : b.length < fuel) (h' : b.length < fuel') :
    drainLoop fuel b total = drainLoop fuel' b total := by
  induction fuel generalizing fuel' b total with
  | zero => omega
  | succ fuel ih =>
    cases fuel' with
    | zero => omega
    | succ fuel' =>
      rw [drainLoop_eq, drainLoop_eq]
      split
      · split
        · rfl
        · next hc =>
          obtain ⟨hr, hle⟩ := decodeBuffer_rest b
          have hlen : (decodeBuffer b).rest.length < b.length := by
            rw [hr, List.length_drop]
            omega
          exact ih _ _ _ (by omega) (by omega)
      · rfl

/-- `DRAIN` over a buffer: its first pass, then itself (R145). -/
theorem drainBuffer_eq (b : List Byte) :
    drainBuffer b =
      if (decodeBuffer b).outcome = .incomplete ∧ (decodeBuffer b).consumed ≠ 0 then
        { drainBuffer (decodeBuffer b).rest with
          consumed := (decodeBuffer b).consumed + (drainBuffer (decodeBuffer b).rest).consumed }
      else decodeBuffer b := by
  obtain ⟨hr, hle⟩ := decodeBuffer_rest b
  rw [drainBuffer, drainLoop_eq]
  by_cases ho : (decodeBuffer b).outcome = .incomplete
  · by_cases hc : (decodeBuffer b).consumed = 0
    · rw [if_pos ho, if_pos hc, if_neg (by simp [hc])]
      rw [← ho]
      conv_lhs => rw [← hc]
    · have hlen : (decodeBuffer b).rest.length < b.length := by
        rw [hr, List.length_drop]
        omega
      rw [if_pos ho, if_neg hc, if_pos ⟨ho, hc⟩, drainLoop_total, Nat.zero_add, drainBuffer,
        drainLoop_fuel b.length ((decodeBuffer b).rest.length + 1) _ _ hlen (by omega)]
  · rw [if_neg ho, if_neg (by simp [ho])]
    simp

/-- An induction over the passes of `DRAIN`: what holds of a last pass, and is kept by the pass before it, holds of
every drain. -/
theorem drainBuffer_induction {P : List Byte → DecodeResult → Prop}
    (last : ∀ b, ¬ ((decodeBuffer b).outcome = .incomplete ∧ (decodeBuffer b).consumed ≠ 0) → P b (decodeBuffer b))
    (more : ∀ b r, (decodeBuffer b).outcome = .incomplete → (decodeBuffer b).consumed ≠ 0 →
      P (decodeBuffer b).rest r → P b { r with consumed := (decodeBuffer b).consumed + r.consumed })
    (b : List Byte) : P b (drainBuffer b) := by
  induction hn : b.length using Nat.strong_induction_on generalizing b with
  | _ n ih =>
    rw [drainBuffer_eq]
    split
    · next h =>
      obtain ⟨hr, hle⟩ := decodeBuffer_rest b
      refine more b _ h.1 h.2 (ih _ ?_ _ rfl)
      rw [hr, List.length_drop]
      omega
    · next h => exact last b h

/-- A drain leaves the buffer less the bytes it consumed from the front (R136, R145). -/
theorem drainBuffer_rest (b : List Byte) :
    (drainBuffer b).rest = b.drop (drainBuffer b).consumed ∧ (drainBuffer b).consumed ≤ b.length := by
  refine drainBuffer_induction
    (P := fun b r => r.rest = b.drop r.consumed ∧ r.consumed ≤ b.length) ?_ ?_ b
  · exact fun b _ => decodeBuffer_rest b
  · rintro b r - - ⟨h1, h2⟩
    obtain ⟨hr, hle⟩ := decodeBuffer_rest b
    rw [hr, List.length_drop] at h2
    rw [hr, List.drop_drop] at h1
    exact ⟨h1, by show _ + _ ≤ _; omega⟩

/-! ### What a pass and a drain can return -/

/-- A result whose error kinds are the decoder's and have consumed something, and whose Status has at most 253
parameters and has consumed at least its frame (R61, R134, R137, R151). -/
def DecodeResult.Sound (r : DecodeResult) : Prop :=
  (∀ k, r.outcome = .error k → k.raisedByDecode = true ∧ 1 ≤ r.consumed)
  ∧ (∀ id params, r.outcome = .status id params → params.length ≤ 253 ∧ params.length + 6 ≤ r.consumed)

theorem decodeBuffer_sound (b : List Byte) : (decodeBuffer b).Sound := by
  rcases decodeBuffer_cases b with ⟨-, h⟩ | ⟨-, -, -, h⟩ | ⟨_, -, -, -, h⟩ | ⟨_, _, _, -, -, h⟩
    | ⟨_, _, _, -, -, -, h⟩ | ⟨_, _, _, _, _, _, -, -, -, h⟩ | ⟨_, _, _, _, _, _, -, -, -, -, h⟩
    | ⟨_, len, params, _, _, -, hl, -, h⟩ <;> rw [h] <;> simp [DecodeResult.Sound, ErrorKind.raisedByDecode]
  · omega
  · have := len.isLt
    omega

theorem drainBuffer_sound (b : List Byte) : (drainBuffer b).Sound := by
  refine drainBuffer_induction (P := fun _ r => r.Sound) (fun b _ => decodeBuffer_sound b) ?_ b
  rintro b r - - ⟨h1, h2⟩
  refine ⟨fun k hk => ⟨(h1 k hk).1, ?_⟩, fun id params hk => ⟨(h2 id params hk).1, ?_⟩⟩
  · have := (h1 k hk).2
    show 1 ≤ _ + _
    omega
  · have := (h2 id params hk).2
    show _ ≤ _ + _
    omega

theorem DecodeResult.Sound.toReply_sound {r : DecodeResult} (h : r.Sound) : r.toReply.sound = true := by
  obtain ⟨o, n, b⟩ := r
  cases o with
  | incomplete => rfl
  | status id params => simpa [DecodeResult.toReply, Reply.sound] using h.2 _ _ rfl
  | error k =>
    simp only [DecodeResult.toReply, Reply.sound, Bool.or_eq_true, Bool.and_eq_true, decide_eq_true_eq]
    exact .inl (h.1 _ rfl)

/-- A pass that consumes nothing says `Incomplete` (R136). -/
theorem decodeBuffer_incomplete_of_zero {b : List Byte} (h0 : (decodeBuffer b).consumed = 0) :
    (decodeBuffer b).outcome = .incomplete := by
  rcases decodeBuffer_cases b with ⟨-, h⟩ | ⟨-, -, -, h⟩ | ⟨_, -, -, -, h⟩ | ⟨_, _, _, -, -, h⟩
    | ⟨_, _, _, -, -, -, h⟩ | ⟨_, _, _, _, _, _, -, -, -, h⟩ | ⟨_, _, _, _, _, _, -, -, -, -, h⟩
    | ⟨_, _, _, _, _, -, -, -, h⟩ <;> rw [h] at h0 ⊢ <;> simp at h0

/-- A pass that raises an error has met the one cause of that kind (R151). -/
theorem decodeBuffer_cause {b : List Byte} {kind : ErrorKind} (h : (decodeBuffer b).outcome = .error kind) :
    HasDecodeCause b kind (decodeBuffer b).consumed := by
  rcases decodeBuffer_cases b with ⟨-, hd⟩ | ⟨-, -, -, hd⟩ | ⟨_, -, -, -, hd⟩ | ⟨id, len, tail, hb, hl, hd⟩
    | ⟨_, _, _, -, -, -, hd⟩ | ⟨id, len, e, params, check, rest, hb, hl, hc, hd⟩
    | ⟨id, len, e, params, check, rest, hb, hl, hc, he, hd⟩ | ⟨_, _, _, _, _, -, -, -, hd⟩ <;> rw [hd] at h ⊢ <;> cases h
  · exact .inl ⟨rfl, rfl, id, len, tail, hb, hl⟩
  · exact .inr ⟨id, len, e, check, params, rest, hb, hl, .inl ⟨rfl, rfl, hc⟩⟩
  · exact .inr ⟨id, len, e, check, params, rest, hb, hl, .inr ⟨rfl, rfl, hc, he⟩⟩

/-- A drain that raises an error has met the one cause of that kind behind the bytes its earlier passes removed (R145,
R151). -/
theorem drainBuffer_cause (b : List Byte) (kind : ErrorKind) (h : (drainBuffer b).outcome = .error kind) :
    ∃ before, before ≤ (drainBuffer b).consumed
      ∧ HasDecodeCause (b.drop before) kind ((drainBuffer b).consumed - before) := by
  refine drainBuffer_induction (P := fun b r => r.outcome = .error kind →
    ∃ before, before ≤ r.consumed ∧ HasDecodeCause (b.drop before) kind (r.consumed - before)) ?_ ?_ b h
  · exact fun b _ h => ⟨0, Nat.zero_le _, decodeBuffer_cause h⟩
  · rintro b r - - ih h
    obtain ⟨n, hn, hc⟩ := ih h
    refine ⟨(decodeBuffer b).consumed + n, Nat.add_le_add_left hn _, ?_⟩
    rw [(decodeBuffer_rest b).1, List.drop_drop] at hc
    rwa [Nat.add_sub_add_left]

/-- A pass that consumes nothing has met one of the two waiting phases (R136, R137). -/
theorem phase_of_zero {b : List Byte} (h0 : (decodeBuffer b).consumed = 0) :
    phase b = .awaitingLengthBytes ∨ phase b = .awaitingBody := by
  rcases decodeBuffer_cases b with ⟨h4, -⟩ | ⟨h4, -, -, h⟩ | ⟨p, -, hf, hp, h⟩ | ⟨_, _, _, -, -, h⟩
    | ⟨_, _, _, rfl, hl, ht, -⟩ | ⟨_, _, _, _, _, _, -, -, -, h⟩ | ⟨_, _, _, _, _, _, -, -, -, -, h⟩
    | ⟨_, _, _, _, _, -, -, -, h⟩
  · exact .inl (phase_short h4)
  · rw [h] at h0
    change b.length = 0 at h0
    omega
  · have := findHeader_pos hf hp
    rw [h] at h0
    change p = 0 at h0
    omega
  · rw [h] at h0
    cases h0
  · exact .inr (by rw [phase_header, if_neg (by omega), if_pos ht])
  · rw [h] at h0
    cases h0
  · rw [h] at h0
    simp at h0
  · rw [h] at h0
    simp at h0

end Sys2Proof.Machine
end

