-- ==== Sys2Proof/Laws/Encode.lean ====
section
/-! SUPPORT. Reading back a sealed packet, and each builder's packet against its layout. -/

namespace Sys2Proof

open Machine

/-- The layout of a sealed body is the frame of R100 when LEN is `len(params) + 2` (R61, R100). -/
theorem sealBody_eq_frame (id code : Byte) (params : List Byte) :
    sealBody (id :: BitVec.ofNat 8 (params.length + 2) :: code :: params) = frame id code params := rfl

/-- A sealed packet is read back field by field, whatever follows it (R60, R64). -/
theorem parsePacket_sealBody (id len code : Byte) (params rest : List Byte) (h : len.toNat = params.length + 2) :
    parsePacket (sealBody (id :: len :: code :: params) ++ rest) =
      some { id := id, len := len, code := code, params := params,
             check := checksum (id :: len :: code :: params), rest := rest } := by
  have hs : sealBody (id :: len :: code :: params) ++ rest
      = 0xFF :: 0xFF :: id :: len :: code :: (params ++ (checksum (id :: len :: code :: params) :: rest)) := by
    simp [sealBody]
  have hd : len.toNat - 2 = params.length := by omega
  rw [hs, parsePacket, if_pos ⟨rfl, rfl, by show 2 ≤ _; omega⟩, hd]
  simp

/-- Recognising a sealed packet is recognising its fields. -/
theorem decode_sealBody (id len code : Byte) (params rest : List Byte) (h : len.toNat = params.length + 2) :
    decode (sealBody (id :: len :: code :: params) ++ rest) =
      ((recogniseInstruction { id := id, len := len, code := code, params := params,
                               check := checksum (id :: len :: code :: params), rest := rest }).or
        (some (.status id code params))).map fun i => (i, rest) := by
  rw [decode, parsePacket_sealBody id len code params rest h]
  simp [recogniseStatus]

theorem parseEntries8_syncEntries (cs : List SyncCommand) :
    parseEntries8 (syncEntries 1 cs) = some (cs.map (truncateCommand 1)) := by
  induction cs with
  | nil => rfl
  | cons c cs ih =>
    have he : syncEntries 1 (c :: cs) = c.id :: lo8 c.value :: syncEntries 1 cs := rfl
    rw [he, parseEntries8, ih]
    simp [truncateCommand]

theorem parseEntries16_syncEntries (cs : List SyncCommand) :
    parseEntries16 (syncEntries 2 cs) = some (cs.map (truncateCommand 2)) := by
  induction cs with
  | nil => rfl
  | cons c cs ih =>
    have he : syncEntries 2 (c :: cs) = c.id :: lo8 c.value :: hi8 c.value :: syncEntries 2 cs := rfl
    have hv : c.value % 256 + 256 * (c.value / 256 % 256) = c.value % 65536 := by omega
    rw [he, parseEntries16, ih]
    simp [truncateCommand, hv]

/-- Width-1 entries are read exactly when they are whole, and are then the entries of what is read (R70). -/
theorem parseEntries8_iff (l : List Byte) :
    (l.length % 2 = 0 → ∃ cs, parseEntries8 l = some cs ∧ syncEntries 1 cs = l)
      ∧ (l.length % 2 ≠ 0 → parseEntries8 l = none) := by
  induction l using parseEntries8.induct with
  | case1 => exact ⟨fun _ => ⟨[], rfl, rfl⟩, fun h => absurd rfl h⟩
  | case2 i v rest ih =>
    rw [parseEntries8, List.length_cons, List.length_cons]
    refine ⟨fun h => ?_, fun h => by rw [ih.2 (by omega)]; rfl⟩
    obtain ⟨cs, hp, he⟩ := ih.1 (by omega)
    exact ⟨_, by rw [hp]; rfl, by simpa [syncEntries, syncEntry, lo8] using he⟩
  | case3 l h1 h2 =>
    match l with
    | [] => exact absurd rfl h1
    | [_] => exact ⟨fun h => by simp at h, fun _ => rfl⟩
    | i :: v :: rest => exact absurd rfl (h2 i v rest)

/-- Width-2 entries are read exactly when they are whole, and are then the entries of what is read (R40, R70). -/
theorem parseEntries16_iff (l : List Byte) :
    (l.length % 3 = 0 → ∃ cs, parseEntries16 l = some cs ∧ syncEntries 2 cs = l)
      ∧ (l.length % 3 ≠ 0 → parseEntries16 l = none) := by
  induction l using parseEntries16.induct with
  | case1 => exact ⟨fun _ => ⟨[], rfl, rfl⟩, fun h => absurd rfl h⟩
  | case2 i lo hi rest ih =>
    rw [parseEntries16, List.length_cons, List.length_cons, List.length_cons]
    refine ⟨fun h => ?_, fun h => by rw [ih.2 (by omega)]; rfl⟩
    obtain ⟨cs, hp, he⟩ := ih.1 (by omega)
    refine ⟨_, by rw [hp]; rfl, ?_⟩
    have h1 : BitVec.ofNat 8 (lo.toNat + 256 * hi.toNat) = lo := by
      apply BitVec.eq_of_toNat_eq
      rw [BitVec.toNat_ofNat]
      omega
    have h2 : BitVec.ofNat 8 ((lo.toNat + 256 * hi.toNat) / 256) = hi := by
      apply BitVec.eq_of_toNat_eq
      rw [BitVec.toNat_ofNat]
      omega
    simpa [syncEntries, syncEntry, lo8, hi8, h1, h2] using he
  | case3 l h1 h2 =>
    match l with
    | [] => exact absurd rfl h1
    | [_] => exact ⟨fun h => by simp at h, fun _ => rfl⟩
    | [_, _] => exact ⟨fun h => by simp at h, fun _ => rfl⟩
    | i :: lo :: hi :: rest => exact absurd rfl (h2 i lo hi rest)

/-- The parameters of a sync-write packet are read back, its values cut to the width (R74, R113). -/
theorem parseSync_syncEntries (addr width : Byte) (cs : List SyncCommand) (hw : width = 1 ∨ width = 2) :
    parseSync (addr :: width :: syncEntries width cs) = some (.syncWrite addr width (cs.map (truncateCommand width))) := by
  rcases hw with rfl | rfl
  · rw [parseSync, if_pos rfl, parseEntries8_syncEntries]
    rfl
  · rw [parseSync, if_neg (by decide), if_pos rfl, parseEntries16_syncEntries]
    rfl

/-- The LEN byte of a sync-write that fits. -/
theorem syncLen_toNat (width : Byte) (cs : List SyncCommand) (h : syncLen width cs ≤ 255) :
    (BitVec.ofNat 8 (syncLen width cs)).toNat = syncLen width cs := by
  simp only [BitVec.toNat_ofNat]
  omega

theorem syncParams_length (addr width : Byte) (cs : List SyncCommand) (hw : width = 1 ∨ width = 2) :
    ([addr, width] ++ syncEntries width cs).length + 2 = syncLen width cs := by
  simp only [List.length_append, syncEntries_length width cs hw, syncLen, List.length_cons, List.length_nil]
  omega

/-- The two halves of a word16, low byte first, put together again (R40). -/
theorem word16_halves (v : Word16) : (v.extractLsb' 8 8 ++ v.extractLsb' 0 8 : BitVec (8 + 8)) = v := by
  apply BitVec.eq_of_getLsbD_eq
  intro i hi
  rw [BitVec.getLsbD_append]
  by_cases h : i < 8
  · simp [h]
  · simp only [h, BitVec.getLsbD_extractLsb']
    have h8 : i - 8 < 8 := by omega
    simp [h8, show 8 + (i - 8) = i by omega]

theorem word16_lo (v : Word16) : v.extractLsb' 0 8 = lo8 v.toNat := by
  apply BitVec.eq_of_toNat_eq
  simp [BitVec.extractLsb'_toNat]

theorem word16_hi (v : Word16) : v.extractLsb' 8 8 = hi8 v.toNat := by
  apply BitVec.eq_of_toNat_eq
  simp [BitVec.extractLsb'_toNat, Nat.shiftRight_eq_div_pow]

end Sys2Proof
end

