-- ==== Sys2Proof/Laws/Exec.lean ====
section
/-! SUPPORT. What each meaning that branches can do, and what every operation leaves alone. -/

namespace Sys2Proof.Machine

/-- The four fixed-length builders always answer: their parameter lists fit (R100). -/
theorem exec_ping (id : Byte) (s : State) :
    exec (.ping id) s = .next { s with outcome := .packet (frame id 0x01 []) } := rfl

theorem exec_read (id addr count : Byte) (s : State) :
    exec (.read id addr count) s = .next { s with outcome := .packet (frame id 0x02 [addr, count]) } := rfl

theorem exec_write8 (id addr value : Byte) (s : State) :
    exec (.write8 id addr value) s = .next { s with outcome := .packet (frame id 0x03 [addr, value]) } := rfl

theorem exec_write16 (id addr : Byte) (value : Word16) (s : State) :
    exec (.write16 id addr value) s =
      .next { s with outcome := .packet (frame id 0x03 [addr, lo8 value.toNat, hi8 value.toNat]) } := rfl

/-- A sync-write of a legal width that fits (R106). -/
theorem execSyncWrite_fits (addr width : Byte) (cs : List SyncCommand) (s : State) (hw : width = 1 ∨ width = 2)
    (hl : syncLen width cs ≤ 255) :
    execSyncWrite addr width cs s =
      .next { s with outcome := .packet (frame 0xFE 0x83 ([addr, width] ++ syncEntries width cs)) } := by
  have hp := Sys2Proof.syncParams_length addr width cs hw
  rw [execSyncWrite, if_neg (by tauto), if_neg (by show ¬ (255 < _); omega), State.replyFrame_eq, if_pos (by omega)]

/-- A sync-write of a legal width that does not fit (R109). -/
theorem execSyncWrite_tooLong (addr width : Byte) (cs : List SyncCommand) (s : State) (hw : width = 1 ∨ width = 2)
    (hl : 255 < syncLen width cs) : execSyncWrite addr width cs s = .refused .syncWriteTooLong := by
  rw [execSyncWrite, if_neg (by tauto), if_pos hl]

/-- A sync-write of an illegal width (R107). -/
theorem execSyncWrite_badWidth (addr width : Byte) (cs : List SyncCommand) (s : State) (h1 : width ≠ 1)
    (h2 : width ≠ 2) :
    execSyncWrite addr width cs s =
      .next { s with outcome := .raised (.decodingError (Config.reasonText s.drawn)) 0, drawn := s.drawn + 1 } := by
  rw [execSyncWrite, if_pos ⟨h1, h2⟩]
  rfl

/-- A status packet that exists and fits is received and decoded (R63, R125). -/
theorem execStatus_eq (id e : Byte) (params : List Byte) (s : State) :
    execStatus id e params s =
      if params.length ≤ 253 then
        if s.params.fits (s.rxbuf.length + (params.length + 6)) = true then
          .next { s with rxbuf := (decodeBuffer (s.rxbuf ++ statusFrame id e params)).rest,
                         outcome := (decodeBuffer (s.rxbuf ++ statusFrame id e params)).toReply }
        else .refused .bufferOverflow
      else .refused .frameTooLong := by
  rw [execStatus, State.receive_eq]
  have hl : (statusFrame id e params).length = params.length + 6 := frame_length id e params
  rw [hl]
  by_cases h : params.length ≤ 253
  · rw [if_pos h, if_pos h]
    by_cases h' : s.params.fits (s.rxbuf.length + (params.length + 6)) = true
    · rw [if_pos h', if_pos h']
      simp only [State.deliver_eq]
    · rw [if_neg h', if_neg h']
  · rw [if_neg h, if_neg h]

/-- THE CASES of an operation that answers: it wrote a packet, another pure answer, the width error, appended bytes,
emptied RXBUF, or made one decoder pass or a drain. -/
theorem exec_cases {i : Instr} {s t : State} (h : exec i s = .next t) :
    (i.isReceive = false ∧ ∃ id code params, params.length ≤ 253
        ∧ t = { s with outcome := .packet (frame id code params) })
    ∨ (i.isReceive = false ∧ i.isBuilder = false ∧ ∃ r : Reply, r.sound = true ∧ (∀ p, r ≠ .packet p)
        ∧ (∀ k n, r ≠ .raised k n) ∧ t = { s with outcome := r })
    ∨ (∃ addr width cs, i = .syncWrite addr width cs ∧ width ≠ 1 ∧ width ≠ 2
        ∧ t = { s with outcome := .raised (.decodingError (Config.reasonText s.drawn)) 0, drawn := s.drawn + 1 })
    ∨ (∃ bytes, i = .push bytes ∧ s.params.fits (s.rxbuf.length + bytes.length) = true
        ∧ t = { s with rxbuf := s.rxbuf ++ bytes, outcome := .nothing })
    ∨ (i = .clear ∧ t = { s with rxbuf := [], outcome := .nothing })
    ∨ (i.isReceive = true ∧ s.params.fits (s.rxbuf ++ i.arrivedBytes).length = s.params.fits s.rxbuf.length
        ∧ ∃ r, (r = decodeBuffer (s.rxbuf ++ i.arrivedBytes)
            ∨ (i = .drain ∧ r = drainBuffer (s.rxbuf ++ i.arrivedBytes)))
          ∧ t = { s with rxbuf := r.rest, outcome := r.toReply })
    ∨ (i.isReceive = true ∧ s.params.fits (s.rxbuf ++ i.arrivedBytes).length = true
        ∧ t = { s with rxbuf := (decodeBuffer (s.rxbuf ++ i.arrivedBytes)).rest,
                       outcome := (decodeBuffer (s.rxbuf ++ i.arrivedBytes)).toReply }) := by
  cases i with
  | ping id =>
    rw [exec_ping] at h
    cases h
    exact .inl ⟨rfl, id, 0x01, [], by simp, rfl⟩
  | read id addr count =>
    rw [exec_read] at h
    cases h
    exact .inl ⟨rfl, id, 0x02, [addr, count], by simp, rfl⟩
  | write8 id addr value =>
    rw [exec_write8] at h
    cases h
    exact .inl ⟨rfl, id, 0x03, [addr, value], by simp, rfl⟩
  | write16 id addr value =>
    rw [exec_write16] at h
    cases h
    exact .inl ⟨rfl, id, 0x03, [addr, lo8 value.toNat, hi8 value.toNat], by simp, rfl⟩
  | syncWrite addr width cs =>
    change execSyncWrite addr width cs s = _ at h
    by_cases hw : width = 1 ∨ width = 2
    · by_cases hl : syncLen width cs ≤ 255
      · rw [execSyncWrite_fits addr width cs s hw hl] at h
        have hp := Sys2Proof.syncParams_length addr width cs hw
        cases h
        exact .inl ⟨rfl, _, _, _, by omega, rfl⟩
      · rw [execSyncWrite_tooLong addr width cs s hw (by omega)] at h
        cases h
    · rw [not_or] at hw
      rw [execSyncWrite_badWidth addr width cs s hw.1 hw.2] at h
      cases h
      exact .inr (.inr (.inl ⟨_, _, _, rfl, hw.1, hw.2, rfl⟩))
  | status id e params =>
    change execStatus id e params s = _ at h
    rw [execStatus_eq] at h
    split at h
    · split at h
      · next hl hf =>
        cases h
        refine .inr (.inr (.inr (.inr (.inr (.inr ⟨rfl, ?_, rfl⟩)))))
        rw [List.length_append, Instr.arrivedBytes, statusFrame, frame_length]
        exact hf
      · cases h
    · cases h
  | checksum bytes =>
    cases h
    exact .inr (.inl ⟨rfl, rfl, .byte (checksum bytes), rfl, by simp, by simp, rfl⟩)
  | frame id code params =>
    change State.replyFrame s id code params = _ at h
    obtain ⟨hl, rfl⟩ := State.replyFrame_next (s := s) h
    exact .inl ⟨rfl, _, _, _, hl, rfl⟩
  | push bytes =>
    obtain ⟨hf, rfl⟩ := State.receive_next (s := s) h
    exact .inr (.inr (.inr (.inl ⟨_, rfl, hf, rfl⟩)))
  | decode =>
    cases h
    refine .inr (.inr (.inr (.inr (.inr (.inl ⟨rfl, ?_, _, .inl rfl, ?_⟩)))))
    · simp [Instr.arrivedBytes]
    · rw [State.deliver_eq]
      simp [Instr.arrivedBytes]
  | clear =>
    cases h
    exact .inr (.inr (.inr (.inr (.inl ⟨rfl, rfl⟩))))
  | findHeader bytes =>
    cases h
    exact .inr (.inl ⟨rfl, rfl, .position (findHeader bytes), rfl, by simp, by simp, rfl⟩)
  | classifyFlags e =>
    cases h
    exact .inr (.inl ⟨rfl, rfl, .flags (classifyFlags e), rfl, by simp, by simp, rfl⟩)
  | statusFrame id e params =>
    change State.replyFrame s id e params = _ at h
    obtain ⟨hl, rfl⟩ := State.replyFrame_next (s := s) h
    exact .inl ⟨rfl, _, _, _, hl, rfl⟩
  | drain =>
    cases h
    refine .inr (.inr (.inr (.inr (.inr (.inl ⟨rfl, ?_, _, .inr ⟨rfl, rfl⟩, ?_⟩)))))
    · simp [Instr.arrivedBytes]
    · rw [State.deliver_eq]
      simp [Instr.arrivedBytes]

/-- `DECODE` is one pass of the decoder (R125). -/
theorem exec_decode (s : State) :
    exec .decode s =
      .next { s with rxbuf := (decodeBuffer s.rxbuf).rest, outcome := (decodeBuffer s.rxbuf).toReply } := by
  show Host.Outcome.next (s.deliver _) = _
  rw [State.deliver_eq]

/-- `DRAIN` is the drain of the buffer (R145). -/
theorem exec_drain (s : State) :
    exec .drain s =
      .next { s with rxbuf := (drainBuffer s.rxbuf).rest, outcome := (drainBuffer s.rxbuf).toReply } := by
  show Host.Outcome.next (s.deliver _) = _
  rw [State.deliver_eq]

/-- No operation changes the moves still to come or the parameters. -/
theorem exec_keeps_moves_and_params {i : Instr} {s t : State} (h : exec i s = .next t) :
    t.moves = s.moves ∧ t.params = s.params := by
  rcases exec_cases h with ⟨-, _, _, _, -, rfl⟩ | ⟨-, -, _, -, -, -, rfl⟩ | ⟨_, _, _, -, -, -, rfl⟩ | ⟨_, -, -, rfl⟩
    | ⟨-, rfl⟩ | ⟨-, -, _, -, rfl⟩ | ⟨-, -, rfl⟩ <;> exact ⟨rfl, rfl⟩

/-- THE CASES of a step that answers: no move was pending and nothing happened, or the next move's operation ran. -/
theorem step_cases {s t : State} (h : step s = .next t) :
    (s.moves = [] ∧ t = s)
    ∨ ∃ m rest i, s.moves = m :: rest ∧ m.operation = some i ∧ exec i { s with moves := rest } = .next t := by
  rw [step] at h
  split at h
  · next hm =>
    cases h
    exact .inl ⟨hm, rfl⟩
  · next m rest hm =>
    split at h
    · next i hi => exact .inr ⟨m, rest, i, hm, hi, h⟩
    · cases h

/-- One more step at the front of a run of any machine. -/
theorem run_succ_of_next (M : Host.Core) (n : Nat) (s u : M.State) (h : M.step s = .next u) :
    M.run (n + 1) s = M.run n u := by
  show (match M.step s with
    | .next u => M.run n u
    | .fault r => .fault r
    | .refused r => .refused r) = _
  rw [h]

/-- A run of at least one step that answers begins with a step that answers. -/
theorem run_succ_next (M : Host.Core) (n : Nat) (s t : M.State) (h : M.run (n + 1) s = .next t) :
    ∃ u, M.step s = .next u ∧ M.run n u = .next t := by
  have h' : (match M.step s with
    | .next u => M.run n u
    | .fault r => .fault r
    | .refused r => .refused r) = Host.Outcome.next t := h
  cases hs : M.step s with
  | next u =>
    rw [hs] at h'
    exact ⟨u, rfl, h'⟩
  | fault r =>
    rw [hs] at h'
    cases h'
  | refused r =>
    rw [hs] at h'
    cases h'

end Sys2Proof.Machine
end

