-- ==== Sys2Proof/Laws/PerInstr.lean ====
section
/-! SUPPORT. The per-instruction family EncodedFrame: whatever `encode` writes is a well-formed frame (R60, R101). -/

namespace Sys2Proof.Laws

open Sys2Proof.Machine

namespace EncodedFrame

/-- The packet of an operation, where it has one, is a well-formed frame. -/
def Statement (i : Instr) : Prop := ∀ p, encode i = some p → isFrame p = true

theorem ping (id : Byte) : Statement (.ping id) := by
  rintro p ⟨⟩
  exact isFrame_frame id 0x01 [] (by simp)

theorem read (id addr count : Byte) : Statement (.read id addr count) := by
  rintro p ⟨⟩
  exact isFrame_frame id 0x02 [addr, count] (by simp)

theorem write8 (id addr value : Byte) : Statement (.write8 id addr value) := by
  rintro p ⟨⟩
  exact isFrame_frame id 0x03 [addr, value] (by simp)

theorem write16 (id addr : Byte) (value : Word16) : Statement (.write16 id addr value) := by
  rintro p ⟨⟩
  exact isFrame_frame id 0x03 [addr, _, _] (by simp)

theorem syncWrite (addr width : Byte) (commands : List SyncCommand) : Statement (.syncWrite addr width commands) := by
  intro p h
  rw [encode] at h
  split at h
  · next hc =>
    rw [Bool.and_eq_true, syncWidthLegal_iff, decide_eq_true_eq] at hc
    have hl := syncParams_length addr width commands hc.1
    have hm : syncLen width commands ≤ 255 := hc.2
    have hf := isFrame_frame 0xFE 0x83 ([addr, width] ++ syncEntries width commands) (by omega)
    rw [← sealBody_eq_frame, hl] at hf
    cases h
    exact hf
  · cases h

theorem status (id errflags : Byte) (params : List Byte) : Statement (.status id errflags params) := by
  intro p h
  rw [encode] at h
  split at h
  · next hc =>
    cases h
    exact isFrame_frame id errflags params (by simpa [wfParams] using hc)
  · cases h

theorem checksum (bytes : List Byte) : Statement (.checksum bytes) := by rintro p ⟨⟩

theorem frame (id code : Byte) (params : List Byte) : Statement (.frame id code params) := by rintro p ⟨⟩

theorem push (bytes : List Byte) : Statement (.push bytes) := by rintro p ⟨⟩

theorem decode : Statement .decode := by rintro p ⟨⟩

theorem clear : Statement .clear := by rintro p ⟨⟩

theorem findHeader (s : List Byte) : Statement (.findHeader s) := by rintro p ⟨⟩

theorem classifyFlags (e : Byte) : Statement (.classifyFlags e) := by rintro p ⟨⟩

theorem statusFrame (id e : Byte) (params : List Byte) : Statement (.statusFrame id e params) := by rintro p ⟨⟩

theorem drain : Statement .drain := by rintro p ⟨⟩

end EncodedFrame
end Sys2Proof.Laws
end

