-- ==== Sys2Proof/Tests/Slice0.lean ====
section
/-! SUPPORT. The model's own tests: the vectors of spec/95_test_vectors.md (their ids in the comments), the decoding of
packets written out from 30_encoding.md, a refused term for each check of WellFormed, and a witness for the hypotheses of
each statement that has some. -/

namespace Sys2Proof.Tests

open Sys2Proof.Machine

/-- A state with the given buffer, as after reset and one `PUSH`. -/
def withBuffer (b : List Byte) : State := { State.reset with rxbuf := b }

/-- A state with a finite capacity. -/
def withCapacity (cap : Nat) (b : List Byte) : State :=
  { State.reset with rxbuf := b, params := { bufCap := some cap, valueBits := 32 } }

def replyOf : StepResult → Option Reply
  | .next s => some s.outcome
  | .fault _ => none
  | .refused _ => none

def bufferOf : StepResult → Option (List Byte)
  | .next s => some s.rxbuf
  | .fault _ => none
  | .refused _ => none

def refusalOf : StepResult → Option Refusal
  | .next _ => none
  | .fault _ => none
  | .refused r => some r

/-- The source's valid status frame `F` (95_test_vectors.md). -/
def goodFrame : List Byte := [0xFF, 0xFF, 0x01, 0x03, 0x00, 0x20, 0xDB]

def noFlags : StatusErrorFlags := classifyFlags 0

/-! ### Decoding of packets written out from the spec's encodings (R66 to R70, R63) -/

/-- S-1, R66. -/
theorem test_decode_ping : decode [0xFF, 0xFF, 0x01, 0x02, 0x01, 0xFB] = some (.ping 1, []) := by decide

/-- E-06, R67. -/
theorem test_decode_read :
    decode [0xFF, 0xFF, 0x01, 0x04, 0x02, 0x24, 0x02, 0xD2] = some (.read 1 36 2, []) := by decide

/-- S-2, R68; the bytes after the packet are given back. -/
theorem test_decode_write8 :
    decode [0xFF, 0xFF, 0xFE, 0x04, 0x03, 0x03, 0x01, 0xF6, 0x99] = some (.write8 0xFE 3 1, [0x99]) := by decide

/-- E-21, R69: low byte first. -/
theorem test_decode_write16 :
    decode [0xFF, 0xFF, 0xFE, 0x05, 0x03, 0x1E, 0x34, 0x12, 0x95] = some (.write16 0xFE 30 0x1234, []) := by decide

/-- S-5, R70. -/
theorem test_decode_syncWrite :
    decode [0xFF, 0xFF, 0xFE, 0x0A, 0x83, 0x1E, 0x02, 0x01, 0x0A, 0x00, 0x02, 0x0A, 0x00, 0x3D]
      = some (.syncWrite 30 2 [⟨1, 10⟩, ⟨2, 10⟩], []) := by decide

/-- E-25, R70 at width 1. -/
theorem test_decode_syncWrite_width1 :
    decode [0xFF, 0xFF, 0xFE, 0x0A, 0x83, 0x18, 0x01, 0x01, 0x01, 0x02, 0x01, 0x03, 0x00, 0x53]
      = some (.syncWrite 24 1 [⟨1, 1⟩, ⟨2, 1⟩, ⟨3, 0⟩], []) := by decide

/-- S-3, R63. -/
theorem test_decode_status : decode goodFrame = some (.status 1 0 [0x20], []) := by decide

/-- No header, a LEN below 2, an unfinished frame, a status packet with a wrong checksum: refused. -/
theorem test_decode_refuses :
    decode [0xFF, 0xFE, 0x01, 0x02, 0x01, 0xFB] = none ∧ decode [0xFF, 0xFF, 0x01, 0x01, 0x00, 0xFD] = none
    ∧ decode [0xFF, 0xFF, 0x01, 0x02, 0x01] = none ∧ decode [0xFF, 0xFF, 0x01, 0x03, 0x00, 0x20, 0xDC] = none := by
  decide

/-- E-06 as table bits, the first byte lowest. -/
theorem test_decodeTableWord : decodeTableWord 64 0xD20224020401FFFF = some (.read 1 36 2) := by decide +kernel

/-- E-06 placed where the step fetches runs as the first instruction after reset. -/
theorem test_withFetchWord :
    replyOf (step (State.reset.withFetchWord 64 0xD20224020401FFFF))
      = some (.packet [0xFF, 0xFF, 0x01, 0x04, 0x02, 0x24, 0x02, 0xD2]) := by decide +kernel

/-! ### WellFormed refuses -/

theorem test_wf_frame_too_long :
    Instr.wellFormed Params.default (.frame 1 1 (List.replicate 254 0)) = false := by decide +kernel

theorem test_wf_status_too_long :
    Instr.wellFormed Params.default (.status 1 0 (List.replicate 254 0)) = false := by decide +kernel

theorem test_wf_statusFrame_too_long :
    Instr.wellFormed Params.default (.statusFrame 1 0 (List.replicate 254 0)) = false := by decide +kernel

theorem test_wf_sync_too_long :
    Instr.wellFormed Params.default (.syncWrite 30 2 (List.replicate 84 ⟨1, 0⟩)) = false := by decide

theorem test_wf_sync_value_too_wide :
    Instr.wellFormed Params.default (.syncWrite 30 2 [⟨1, 2 ^ 32⟩]) = false := by decide

/-- A list of an illegal width is an operand with a meaning, whatever its length (R107). -/
theorem test_wf_sync_illegal_width :
    Instr.wellFormed Params.default (.syncWrite 30 0 (List.replicate 84 ⟨1, 0⟩)) = true := by decide

/-! ### CHK -/

/-- K-05. -/
theorem test_checksum_wraps :
    replyOf (exec (.checksum [0xFE, 0x04, 0x03, 0x03, 0x01]) State.reset) = some (.byte 0xF6) := by decide

/-- K-01, K-03, K-12. -/
theorem test_checksum_corners :
    checksum [] = 0xFF ∧ checksum [0xFF] = 0x00 ∧ checksum [0x01, 0x03, 0x00, 0x20, 0xDB] = 0x00 := by decide

/-! ### ENC -/

/-- E-03, E-05. -/
theorem test_ping_corners :
    replyOf (exec (.ping 253) State.reset) = some (.packet [0xFF, 0xFF, 0xFD, 0x02, 0x01, 0xFF])
    ∧ replyOf (exec (.ping 255) State.reset) = some (.packet [0xFF, 0xFF, 0xFF, 0x02, 0x01, 0xFD]) := by decide

/-- E-09. -/
theorem test_read_top : replyOf (exec (.read 253 255 255) State.reset)
    = some (.packet [0xFF, 0xFF, 0xFD, 0x04, 0x02, 0xFF, 0xFF, 0xFE]) := by decide

/-- E-12. -/
theorem test_write8 : replyOf (exec (.write8 1 24 1) State.reset)
    = some (.packet [0xFF, 0xFF, 0x01, 0x04, 0x03, 0x18, 0x01, 0xDE]) := by decide

/-- E-17, E-21. -/
theorem test_write16_byte_order :
    replyOf (exec (.write16 1 30 1023) State.reset)
      = some (.packet [0xFF, 0xFF, 0x01, 0x05, 0x03, 0x1E, 0xFF, 0x03, 0xD6])
    ∧ replyOf (exec (.write16 254 30 0x1234) State.reset)
      = some (.packet [0xFF, 0xFF, 0xFE, 0x05, 0x03, 0x1E, 0x34, 0x12, 0x95]) := by decide

/-- E-24, E-26, E-27, E-29. -/
theorem test_syncWrite_packets :
    replyOf (exec (.syncWrite 30 2 []) State.reset)
      = some (.packet [0xFF, 0xFF, 0xFE, 0x04, 0x83, 0x1E, 0x02, 0x5A])
    ∧ replyOf (exec (.syncWrite 30 1 [⟨1, 0x1234⟩]) State.reset)
      = some (.packet [0xFF, 0xFF, 0xFE, 0x06, 0x83, 0x1E, 0x01, 0x01, 0x34, 0x24])
    ∧ replyOf (exec (.syncWrite 30 2 [⟨1, 0x12345678⟩]) State.reset)
      = some (.packet [0xFF, 0xFF, 0xFE, 0x07, 0x83, 0x1E, 0x02, 0x01, 0x78, 0x56, 0x88])
    ∧ replyOf (exec (.syncWrite 30 2 [⟨2, 10⟩, ⟨1, 10⟩]) State.reset)
      = some (.packet [0xFF, 0xFF, 0xFE, 0x0A, 0x83, 0x1E, 0x02, 0x02, 0x0A, 0x00, 0x01, 0x0A, 0x00, 0x3D]) := by
  decide

/-- E-34, E-35: one entry too many is refused. -/
theorem test_syncWrite_refused :
    refusalOf (exec (.syncWrite 30 2 (List.replicate 84 ⟨1, 0⟩)) State.reset) = some .syncWriteTooLong
    ∧ refusalOf (exec (.syncWrite 24 1 (List.replicate 126 ⟨1, 0⟩)) State.reset) = some .syncWriteTooLong := by decide

/-- R6's table: 125 for width 1, 83 for width 2. -/
theorem test_syncMaxCount : Config.syncMaxCount 1 = 125 ∧ Config.syncMaxCount 2 = 83 := by decide

/-- R124's worked example. -/
theorem test_statusFrame : replyOf (exec (.statusFrame 1 0 [0x20]) State.reset) = some (.packet goodFrame) := by decide

/-- S-2 as a frame. -/
theorem test_frame : replyOf (exec (.frame 0xFE 0x03 [0x03, 0x01]) State.reset)
    = some (.packet [0xFF, 0xFF, 0xFE, 0x04, 0x03, 0x03, 0x01, 0xF6]) := by decide

/-! ### FBD, DEC -/

/-- R120's worked example. -/
theorem test_push : bufferOf (exec (.push [0x01, 0x03]) (withBuffer [0xFF, 0xFF]))
    = some [0xFF, 0xFF, 0x01, 0x03] := by decide

/-- R121: the last byte that fits, and one more. -/
theorem test_push_capacity :
    bufferOf (exec (.push [0xAA]) (withCapacity 259 (List.replicate 258 0)))
      = some (List.replicate 258 0 ++ [0xAA])
    ∧ refusalOf (exec (.push [0xAA]) (withCapacity 259 (List.replicate 259 0))) = some .bufferOverflow := by decide +kernel

/-- S-3 and R133's worked example, the byte after the frame kept. -/
theorem test_decode_emits_status :
    replyOf (exec .decode (withBuffer goodFrame)) = some (.status 1 [0x20] 7)
    ∧ replyOf (exec .decode (withBuffer [0xFF, 0xFF, 0x04, 0x04, 0x00, 0xFF, 0x01, 0xF7, 0x55]))
      = some (.status 4 [0xFF, 0x01] 8)
    ∧ bufferOf (exec .decode (withBuffer [0xFF, 0xFF, 0x04, 0x04, 0x00, 0xFF, 0x01, 0xF7, 0x55]))
      = some [0x55] := by decide

/-- S-4, D-05, D-08, D-11, D-12, D-15, D-14: one step of the decoder each. -/
theorem test_decode_steps :
    replyOf (exec .decode (withBuffer [0xFF, 0xFF, 0x01, 0x03, 0x01, 0x20, 0xDA]))
      = some (.raised (.statusFault { noFlags with inputVoltage := true }) 7)
    ∧ replyOf (exec .decode (withBuffer [0xFF, 0xFF, 0x01, 0x02, 0x24, 0xD8]))
      = some (.raised (.statusFault { noFlags with overheating := true, overload := true }) 6)
    ∧ replyOf (exec .decode (withBuffer [0xFF, 0xFF, 0x01, 0x02, 0x80, 0x7C]))
      = some (.raised (.statusFault noFlags) 6)
    ∧ replyOf (exec .decode (withBuffer [0xFF, 0xFF, 0x01, 0x03, 0x00, 0x20, 0xDC]))
      = some (.raised .checksumError 1)
    ∧ bufferOf (exec .decode (withBuffer [0xFF, 0xFF, 0x01, 0x01, 0x00, 0xFD]))
      = some [0xFF, 0x01, 0x01, 0x00, 0xFD]
    ∧ bufferOf (exec .decode (withBuffer [0x12, 0x34, 0x56, 0x78, 0x9A])) = some []
    ∧ replyOf (exec .decode (withBuffer ([0x12, 0x34, 0x56] ++ goodFrame))) = some (.incomplete 3) := by decide

/-- D-27. -/
theorem test_clear : bufferOf (exec .clear (withBuffer [0xFF, 0x01, 0x03, 0x00, 0x20, 0xDC])) = some [] := by decide

/-- R122's worked examples. -/
theorem test_findHeader :
    findHeader [0x12, 0xFF, 0xFF, 0x01] = some 1 ∧ findHeader [0xFF, 0x00, 0xFF, 0xFF] = some 2
    ∧ findHeader [0x12, 0x34, 0x56, 0xFF] = none
    ∧ replyOf (exec (.findHeader [0xFF, 0xFF, 0xFF]) State.reset) = some (.position (some 0)) := by decide

/-- R123's worked examples. -/
theorem test_classifyFlags :
    replyOf (exec (.classifyFlags 0x24) State.reset)
      = some (.flags { noFlags with overheating := true, overload := true })
    ∧ classifyFlags 0x80 = noFlags := by decide

/-- D-25: garbage, a false header, the frame; the drain stops at the error with both bytes counted. -/
theorem test_drain_stops_at_error :
    replyOf (exec .drain (withBuffer ([0x00, 0xFF] ++ goodFrame))) = some (.raised .headerError 2)
    ∧ bufferOf (exec .drain (withBuffer ([0x00, 0xFF] ++ goodFrame))) = some goodFrame := by decide

/-- D-14 by one drain; P2 steps 3 and 4. -/
theorem test_drain_finds_frame :
    replyOf (exec .drain (withBuffer ([0x12, 0x34, 0x56] ++ goodFrame))) = some (.status 1 [0x20] 10)
    ∧ replyOf (exec .drain (withBuffer [0x00, 0xA5, 0xFF, 0xFF, 0x01, 0x04, 0x00])) = some (.incomplete 2) := by decide

/-- R140 as one arrival, and the front decoded first where RXBUF is not empty. -/
theorem test_status_arrival :
    replyOf (exec (.status 1 0 [0x20]) State.reset) = some (.status 1 [0x20] 7)
    ∧ replyOf (exec (.status 1 0 [0x20]) (withBuffer [0x12])) = some (.incomplete 1) := by decide

/-! ### Witnesses: a state and operands that meet the hypotheses of each statement that has some -/

theorem test_witness_SyncWriteBuildsItsPacket :
    (((1 : Byte) = 1 ∨ (1 : Byte) = 2) ∧ ((1 : Byte).toNat + 1) * (List.replicate 125 (⟨1, 7⟩ : SyncCommand)).length + 4 ≤ 255
      ∧ (List.replicate 125 (⟨1, 7⟩ : SyncCommand))[124]? = some ⟨1, 7⟩)
    ∧ (((2 : Byte) = 1 ∨ (2 : Byte) = 2) ∧ ((2 : Byte).toNat + 1) * (List.replicate 83 (⟨1, 7⟩ : SyncCommand)).length + 4 ≤ 255
      ∧ (List.replicate 83 (⟨1, 7⟩ : SyncCommand))[82]? = some ⟨1, 7⟩) := by decide +kernel

theorem test_witness_SyncWriteTruncatesValues :
    (((1 : Byte) = 1 ∨ (1 : Byte) = 2) ∧ ((2 : Byte) = 1 ∨ (2 : Byte) = 2)) := by decide

theorem test_witness_SyncWriteWidthError :
    ((0 : Byte) ≠ 1 ∧ (0 : Byte) ≠ 2) ∧ ((3 : Byte) ≠ 1 ∧ (3 : Byte) ≠ 2) ∧ ((255 : Byte) ≠ 1 ∧ (255 : Byte) ≠ 2) := by
  decide

/-- Both clauses of SyncWriteTooLongIsRefused at their bounds: 125 and 83 fit, 126 and 84 do not. -/
theorem test_witness_SyncWriteTooLongIsRefused :
    (replyOf (exec (.syncWrite 24 1 (List.replicate 125 ⟨1, 0⟩)) State.reset)).isSome = true
    ∧ (replyOf (exec (.syncWrite 30 2 (List.replicate 83 ⟨1, 0⟩)) State.reset)).isSome = true
    ∧ refusalOf (exec (.syncWrite 24 1 (List.replicate 126 ⟨1, 0⟩)) State.reset) = some .syncWriteTooLong
    ∧ refusalOf (exec (.syncWrite 30 2 (List.replicate 84 ⟨1, 0⟩)) State.reset) = some .syncWriteTooLong := by decide +kernel

/-- The bound of FrameBuildsItsFrame, StatusFrameIsFrame and DecodeOfStatusFrame, and of OverlongFrameIsRefused. -/
theorem test_witness_parameter_bound :
    (List.replicate 253 (0 : Byte)).length ≤ 253 ∧ 253 < (List.replicate 254 (0 : Byte)).length := by decide +kernel

/-- BuiltPacketsAreFrames, BuildersArePure and the first half of EchoDecodesAsStatusFault. -/
theorem test_witness_builder_answers :
    ∃ (i : Instr) (s t : State) (p : List Byte),
      i.isBuilder = true ∧ exec i s = .next t ∧ t.outcome = .packet p :=
  ⟨.ping 1, State.reset, _, _, rfl, rfl, rfl⟩

/-- BuildersAreInjective on two different operands with the same packet: 256 and 0 at width 1. -/
theorem test_witness_BuildersAreInjective :
    ∃ (i j : Instr) (s t u v : State) (p : List Byte), i ≠ j ∧ i.isBuilder = true ∧ j.isBuilder = true
      ∧ exec i s = .next t ∧ t.outcome = .packet p ∧ exec j u = .next v ∧ v.outcome = .packet p :=
  ⟨.syncWrite 30 1 [⟨1, 256⟩], .syncWrite 30 1 [⟨1, 0⟩], State.reset, _, State.reset, _, _,
    by decide, rfl, rfl, rfl, rfl, rfl, rfl⟩

/-- LayoutsAgreeWithBuilders, DecodeOfEncodedBuilder (a value at the top of its width) and DecodeOfEncodedStatus. -/
theorem test_witness_encode :
    (Instr.isBuilder (.syncWrite 30 2 [⟨1, 65535⟩]) = true ∧ (encode (.syncWrite 30 2 [⟨1, 65535⟩])).isSome = true
      ∧ 65535 < 2 ^ (8 * (2 : Byte).toNat))
    ∧ (encode (.status 1 0x80 (List.replicate 253 0))).isSome = true := by decide +kernel

/-- DecodeOfEncodedStatus: its two clauses at the bounds between them. S-4 has the error byte of a PING and another LEN; at
`0x03` LEN 4 and 5 are a WRITE8 and a WRITE16, LEN 6 is neither; `0x83` needs the broadcast ID and whole entries. -/
theorem test_witness_DecodeOfEncodedStatus :
    sharesInstructionPacket 1 0x01 [0x20] = false ∧ sharesInstructionPacket 1 0x01 [] = true
    ∧ sharesInstructionPacket 1 0x02 [1] = false ∧ sharesInstructionPacket 1 0x02 [1, 2] = true
    ∧ sharesInstructionPacket 1 0x03 [1, 2] = true ∧ sharesInstructionPacket 1 0x03 [1, 2, 3] = true
    ∧ sharesInstructionPacket 1 0x03 [1, 2, 3, 4] = false ∧ sharesInstructionPacket 1 0x83 [30, 1] = false
    ∧ sharesInstructionPacket 0xFE 0x83 [30, 1] = true ∧ sharesInstructionPacket 0xFE 0x83 [30, 1, 5] = false
    ∧ sharesInstructionPacket 0xFE 0x83 [30, 3] = false := by decide

/-- S-4 as a packet: a status packet, not a PING. -/
theorem test_decode_status_with_instruction_code :
    decode [0xFF, 0xFF, 0x01, 0x03, 0x01, 0x20, 0xDA] = some (.status 1 0x01 [0x20], []) := by decide

/-- StepRunsTheDecodedOperation, StepWithoutOperation. -/
theorem test_witness_moves :
    (decode [0xFF, 0xFF, 0x01, 0x02, 0x01, 0xFB] = some (.ping 1, []))
    ∧ decode [0x00] = none ∧ State.reset.moves = [] := by decide

/-- StepRunsThePlacedWord: S-1 as 48 bits. -/
theorem test_witness_StepRunsThePlacedWord : decodeTableWord 48 0xFB010201FFFF = some (.ping 1) := by decide +kernel

/-- PushAppendsBytes at the bound of a finite capacity, PushBeyondCapacityIsRefused one byte past it. -/
theorem test_witness_push :
    (∀ cap, (withCapacity 259 (List.replicate 258 0)).params.bufCap = some cap →
      (withCapacity 259 (List.replicate 258 0)).rxbuf.length + ([0xAA] : List Byte).length ≤ cap)
    ∧ ((withCapacity 259 (List.replicate 259 0)).params.bufCap = some 259
      ∧ 259 < (withCapacity 259 (List.replicate 259 0)).rxbuf.length + ([0xAA] : List Byte).length)
    ∧ State.reset.params.bufCap = none
    ∧ (Params.legal { bufCap := some 259, valueBits := 16 } = true) :=
  ⟨by rintro cap ⟨⟩; decide +kernel, by decide +kernel, rfl, by decide +kernel⟩

/-- DecodeWaitsForFourBytes at 3 bytes, DecodeResynchronises and DecodeDiscardsBufferWithoutHeader at 4. -/
theorem test_witness_decode_front :
    (withBuffer [0xFF, 0xFF, 0x01]).rxbuf.length < 4
    ∧ (4 ≤ (withBuffer [0xFF, 0x00, 0xFF, 0xFF]).rxbuf.length
      ∧ ¬ ((withBuffer [0xFF, 0x00, 0xFF, 0xFF]).rxbuf[0]? = some 0xFF
        ∧ (withBuffer [0xFF, 0x00, 0xFF, 0xFF]).rxbuf[1]? = some 0xFF)
      ∧ findHeader (withBuffer [0xFF, 0x00, 0xFF, 0xFF]).rxbuf = some 2)
    ∧ (4 ≤ (withBuffer [0x12, 0x34, 0x56, 0xFF]).rxbuf.length
      ∧ ¬ ((withBuffer [0x12, 0x34, 0x56, 0xFF]).rxbuf[0]? = some 0xFF
        ∧ (withBuffer [0x12, 0x34, 0x56, 0xFF]).rxbuf[1]? = some 0xFF)
      ∧ findHeader (withBuffer [0x12, 0x34, 0x56, 0xFF]).rxbuf = none) := by decide

/-- DecodeRaisesHeaderError at LEN 1, DecodeWaitsForTheBody one byte short at LEN 2 and at LEN 255. -/
theorem test_witness_decode_length :
    ((withBuffer [0xFF, 0xFF, 0x01, 0x01]).rxbuf = 0xFF :: 0xFF :: 0x01 :: 0x01 :: [] ∧ (0x01 : Byte).toNat < 2)
    ∧ ((withBuffer [0xFF, 0xFF, 0x01, 0x02, 0x00]).rxbuf = 0xFF :: 0xFF :: 0x01 :: 0x02 :: [0x00]
      ∧ 2 ≤ (0x02 : Byte).toNat ∧ ([0x00] : List Byte).length < (0x02 : Byte).toNat)
    ∧ (2 ≤ (0xFF : Byte).toNat ∧ (List.replicate 254 (0 : Byte)).length < (0xFF : Byte).toNat) := by decide +kernel

/-- DecodeRaisesChecksumError, DecodeRaisesStatusFault (`0x80` too), DecodeEmitsStatus on the shortest frame. -/
theorem test_witness_decode_frame :
    ((withBuffer [0xFF, 0xFF, 0x01, 0x02, 0x00, 0xFB]).rxbuf = 0xFF :: 0xFF :: 0x01 :: 0x02 :: 0x00 :: ([] ++ 0xFB :: [])
      ∧ (0x02 : Byte).toNat = ([] : List Byte).length + 2 ∧ checksum (0x01 :: 0x02 :: 0x00 :: []) ≠ 0xFB)
    ∧ ((withBuffer [0xFF, 0xFF, 0x01, 0x02, 0x80, 0x7C]).rxbuf = 0xFF :: 0xFF :: 0x01 :: 0x02 :: 0x80 :: ([] ++ 0x7C :: [])
      ∧ checksum (0x01 :: 0x02 :: 0x80 :: []) = 0x7C ∧ (0x80 : Byte) ≠ 0)
    ∧ ((withBuffer [0xFF, 0xFF, 0x01, 0x02, 0x00, 0xFC]).rxbuf = 0xFF :: 0xFF :: 0x01 :: 0x02 :: 0x00 :: ([] ++ 0xFC :: [])
      ∧ checksum (0x01 :: 0x02 :: 0x00 :: []) = 0xFC) := by decide

/-- DecodeMakesProgress, first clause, with each of the three kinds. -/
theorem test_witness_decode_errors :
    replyOf (exec .decode (withBuffer [0xFF, 0xFF, 0x01, 0x00])) = some (.raised .headerError 1)
    ∧ replyOf (exec .decode (withBuffer [0xFF, 0xFF, 0x01, 0x02, 0x00, 0xFB])) = some (.raised .checksumError 1)
    ∧ replyOf (exec .decode (withBuffer [0xFF, 0xFF, 0x01, 0x02, 0x80, 0x7C]))
      = some (.raised (.statusFault noFlags) 6) := by decide

/-- RaisedKindsAreTheBlocks: an error of a `DRAIN` whose cause stands behind a byte removed before it. -/
theorem test_witness_RaisedKindsAreTheBlocks :
    replyOf (exec .drain (withBuffer [0x12, 0xFF, 0xFF, 0x01, 0x01])) = some (.raised .headerError 2) := by decide

/-- DecodeDependsOnTheBufferAlone on two different states. -/
theorem test_witness_DecodeDependsOnTheBufferAlone :
    (withBuffer goodFrame ≠ withCapacity 300 goodFrame ∧ (withBuffer goodFrame).rxbuf = (withCapacity 300 goodFrame).rxbuf)
    ∧ ∃ t, exec (.push ([0xFF] ++ [0xFF, 0x01])) State.reset = .next t :=
  ⟨by decide, _, rfl⟩

/-- The pushes of ClearEmptiesTheBuffer and ResetAndClearLeaveAnEmptyBuffer. -/
theorem test_witness_push_after_clear :
    ∃ t u, exec .clear (withCapacity 259 goodFrame) = .next t ∧ exec (.push goodFrame) t = .next u := ⟨_, _, rfl, rfl⟩

/-- DecodeOfStatusFrame with both kinds of error byte and bytes behind the frame. -/
theorem test_witness_DecodeOfStatusFrame :
    (withBuffer (goodFrame ++ [0x55])).rxbuf = statusFrame 1 0 [0x20] ++ [0x55]
    ∧ (withBuffer [0xFF, 0xFF, 0x01, 0x03, 0x01, 0x20, 0xDA, 0x55]).rxbuf = statusFrame 1 1 [0x20] ++ [0x55]
    ∧ (1 : Byte) ≠ 0 := by decide

/-- FrameBehindGarbageIsFound: garbage without `0xFF`, and garbage with a lone `0xFF` inside (D-24). -/
theorem test_witness_FrameBehindGarbageIsFound :
    ((withBuffer ([0x12] ++ goodFrame)).rxbuf = [0x12] ++ statusFrame 1 0 [0x20] ++ []
      ∧ ∀ b ∈ ([0x12] : List Byte), b ≠ 0xFF)
    ∧ findHeader ([0xFF, 0x00] ++ statusFrame 1 0 [0x20]) = some ([0xFF, 0x00] : List Byte).length := by decide

/-- FrameInsideCorruptFrameIsFound: a `HeaderError` with the frame right behind the dropped byte, and a `ChecksumError`
with bytes between. -/
theorem test_witness_FrameInsideCorruptFrameIsFound :
    (replyOf (exec .decode (withBuffer ([0xFF] ++ goodFrame))) = some (.raised .headerError 1)
      ∧ (withBuffer ([0xFF] ++ goodFrame)).rxbuf.drop 1 = [] ++ statusFrame 1 0 [0x20] ++ []
      ∧ findHeader ([] ++ statusFrame 1 0 [0x20]) = some ([] : List Byte).length)
    ∧ (replyOf (exec .decode (withBuffer ([0xFF, 0xFF, 0x02, 0x02, 0x00, 0x00] ++ goodFrame)))
          = some (.raised .checksumError 1)
      ∧ (withBuffer ([0xFF, 0xFF, 0x02, 0x02, 0x00, 0x00] ++ goodFrame)).rxbuf.drop 1
          = [0xFF, 0x02, 0x02, 0x00, 0x00] ++ statusFrame 1 0 [0x20] ++ []
      ∧ findHeader ([0xFF, 0x02, 0x02, 0x00, 0x00] ++ statusFrame 1 0 [0x20])
          = some ([0xFF, 0x02, 0x02, 0x00, 0x00] : List Byte).length) := by decide

/-- LinkOnlyPushes: a move of each agent that answers, and the parameter bound. -/
theorem test_witness_LinkOnlyPushes :
    (Agent.link, Instr.push goodFrame) ∈ Instr.agentMoves (.status 1 0 [0x20])
    ∧ (Agent.host, Instr.decode) ∈ Instr.agentMoves (.status 1 0 [0x20])
    ∧ (replyOf (exec (.push goodFrame) State.reset)).isSome = true ∧ (replyOf (exec .decode State.reset)).isSome = true
    ∧ (List.replicate 253 (0 : Byte)).length ≤ 253 := by decide +kernel

/-- EchoDecodesAsStatusFault: D-20. -/
theorem test_witness_EchoDecodesAsStatusFault :
    ∃ t, exec (.ping 1) State.reset = .next t ∧ t.outcome = .packet [0xFF, 0xFF, 0x01, 0x02, 0x01, 0xFB]
      ∧ (withBuffer [0xFF, 0xFF, 0x01, 0x02, 0x01, 0xFB]).rxbuf = [0xFF, 0xFF, 0x01, 0x02, 0x01, 0xFB] ++ [] :=
  ⟨_, rfl, rfl, rfl⟩

/-- SplitHeaderLosesTheFrame: D-17, and at the capacity's bound. -/
theorem test_witness_SplitHeaderLosesTheFrame :
    3 ≤ ([0x12, 0x34, 0x56] : List Byte).length
    ∧ (withCapacity 259 [0x12, 0x34, 0x56, 0xFF]).rxbuf = [0x12, 0x34, 0x56] ++ [0xFF]
    ∧ findHeader (withCapacity 259 [0x12, 0x34, 0x56, 0xFF]).rxbuf = none
    ∧ 3 ≤ ([0x01, 0x03, 0x00, 0x20, 0xDB] : List Byte).length
    ∧ findHeader (0xFF :: [0x01, 0x03, 0x00, 0x20, 0xDB]) = none
    ∧ ([0x01, 0x03, 0x00, 0x20, 0xDB] : List Byte).length + 1 ≤ 259 := by decide

/-- DrainIsItsLoop: a first pass of each of the three kinds. -/
theorem test_witness_DrainIsItsLoop :
    replyOf (exec .decode (withBuffer goodFrame)) = some (.status 1 [0x20] 7)
    ∧ replyOf (exec .decode (withBuffer [])) = some (.incomplete 0)
    ∧ replyOf (exec .decode (withBuffer ([0x12] ++ goodFrame))) = some (.incomplete 1) := by decide

/-- StatusIsArrivalThenDecode at the bound of a finite capacity. -/
theorem test_witness_StatusIsArrivalThenDecode :
    (List.replicate 253 (0 : Byte)).length ≤ 253
    ∧ (∀ cap, (withCapacity 259 []).params.bufCap = some cap →
      (withCapacity 259 []).rxbuf.length + ((List.replicate 253 (0 : Byte)).length + 6) ≤ cap)
    ∧ (withCapacity 259 []).rxbuf = [] :=
  ⟨by decide +kernel, by rintro cap ⟨⟩; decide +kernel, rfl⟩

/-- PhaseDecidesTheOutcome, DecodeShrinksTheBuffer: a buffer in each of the five phases. -/
theorem test_witness_phases :
    phase [0xFF, 0xFF, 0x01] = .awaitingLengthBytes ∧ phase [0x12, 0x34, 0x56, 0xFF] = .seekingHeader
    ∧ phase [0xFF, 0xFF, 0x01, 0x01] = .badLength ∧ phase [0xFF, 0xFF, 0x01, 0x02, 0x00] = .awaitingBody
    ∧ phase [0xFF, 0xFF, 0x01, 0x02, 0x00, 0xFC] = .emit := by decide

/-- CorruptByteIsDetected at the first and the last index. -/
theorem test_witness_CorruptByteIsDetected :
    ((statusFrame 1 0 [0x20])[2]? ≠ some 0x02
      ∧ (withBuffer [0xFF, 0xFF, 0x02, 0x03, 0x00, 0x20, 0xDB]).rxbuf = (statusFrame 1 0 [0x20]).set 2 0x02 ++ [])
    ∧ (6 < (statusFrame 1 0 [0x20]).length ∧ (statusFrame 1 0 [0x20])[6]? ≠ some 0xDC
      ∧ (withBuffer [0xFF, 0xFF, 0x01, 0x03, 0x00, 0x20, 0xDC]).rxbuf = (statusFrame 1 0 [0x20]).set 6 0xDC ++ []) := by
  decide

/-- StepKeepsTheMachineSound, StepKeepsParameters, OperationsKeepBufferOrder, TransmitSideIgnoresTheBuffer,
OnlyTheWidthErrorDrawsAText: a step that answers, from a state with the invariant. -/
theorem test_witness_step :
    ∃ t, State.reset.params.legal = true ∧ State.reset.outcome.sound = true
      ∧ step { State.reset with moves := [.call (.push goodFrame), .call .decode] } = .next t :=
  ⟨_, rfl, rfl, rfl⟩

/-- TransmitSideIgnoresTheBuffer, and the width error of OnlyTheWidthErrorDrawsAText and RaisedKindsAreTheBlocks. -/
theorem test_witness_width_error :
    ∃ t kind consumed, Instr.isReceive (.syncWrite 30 0 []) = false
      ∧ exec (.syncWrite 30 0 []) State.reset = .next t ∧ t.outcome = .raised kind consumed :=
  ⟨_, _, _, rfl, rfl, rfl⟩

/-- BufferIsTailOfReceivedStream: a run of two steps that answers. -/
theorem test_witness_BufferIsTailOfReceivedStream :
    ∃ t, Host.Core.run Sys2Proof.core 2 { State.reset with moves := [.call (.push goodFrame), .call .decode] }
      = Host.Outcome.next t := ⟨_, rfl⟩

/-- OperationsAreDefined: both answers. -/
theorem test_witness_OperationsAreDefined :
    Instr.definedIn State.reset (.frame 1 1 (List.replicate 253 0)) = true
    ∧ Instr.definedIn State.reset (.frame 1 1 (List.replicate 254 0)) = false := by decide +kernel

end Sys2Proof.Tests
end

section
/-! PROOFS. The packets of 30_encoding.md section 2 (R66 to R70): the bytes of a frame by index, the entries of a
sync-write by index, and the five builders' packets. -/

namespace Sys2Proof.Machine

/-! ### A frame by index -/

/-- The five bytes before the parameters, and what stands behind them (R100). -/
theorem frame_eq_append (id code : Byte) (params : List Byte) :
    frame id code params = [0xFF, 0xFF, id, BitVec.ofNat 8 (params.length + 2), code] ++ params
      ++ [checksum (id :: BitVec.ofNat 8 (params.length + 2) :: code :: params)] := rfl

/-- The parameters of a frame begin at index 5 (R60). -/
theorem frame_getElem?_params (id code : Byte) (params : List Byte) (i : Nat) (h : i < params.length) :
    (frame id code params)[5 + i]? = params[i]? := by
  rw [frame_eq_append, List.getElem?_append_left (by simp; omega), List.getElem?_append_right (by simp)]
  simp

/-- Everything between the header and the checksum of a frame (R90). -/
theorem frame_body (id code : Byte) (params : List Byte) :
    ((frame id code params).drop 2).take ((frame id code params).length - 3)
      = id :: BitVec.ofNat 8 (params.length + 2) :: code :: params := by
  rw [frame_length, show params.length + 6 - 3 = params.length + 3 by omega, frame_eq]
  simp

/-- The last byte of a frame is the checksum of what stands between the header and itself (R90, R100). -/
theorem frame_getLast? (id code : Byte) (params : List Byte) :
    (frame id code params).getLast?
      = some (checksum (((frame id code params).drop 2).take ((frame id code params).length - 3))) := by
  rw [frame_body, frame_eq_append, List.getLast?_concat]

/-! ### The entries of a sync-write by index -/

/-- Entry `k` of a sync-write begins at byte `(width + 1) * k` of the entries (R70, R110). -/
theorem syncEntries_getElem? (w : Byte) (hw : w = 1 ∨ w = 2) {cs : List SyncCommand} {k : Nat} {c : SyncCommand}
    (h : cs[k]? = some c) (i : Nat) (hi : i < w.toNat + 1) :
    (syncEntries w cs)[(w.toNat + 1) * k + i]? = (syncEntry w c)[i]? := by
  induction cs generalizing k with
  | nil => simp at h
  | cons d cs ih =>
    rw [syncEntries]
    cases k with
    | zero =>
      obtain rfl : d = c := by simpa using h
      rw [Nat.mul_zero, Nat.zero_add, List.getElem?_append_left (by rwa [syncEntry_length w d hw])]
    | succ k =>
      have hk : (w.toNat + 1) * (k + 1) + i = (syncEntry w d).length + ((w.toNat + 1) * k + i) := by
        rw [syncEntry_length w d hw]
        ring
      rw [hk, List.getElem?_append_right (Nat.le_add_right _ _), Nat.add_sub_cancel_left]
      exact ih (by simpa using h)

/-- Entry `k` lies inside the entries. -/
theorem syncEntries_index_lt (w : Byte) (hw : w = 1 ∨ w = 2) {cs : List SyncCommand} {k : Nat}
    (hk : k < cs.length) (i : Nat) (hi : i < w.toNat + 1) :
    (w.toNat + 1) * k + i < (syncEntries w cs).length := by
  rw [syncEntries_length w cs hw]
  calc (w.toNat + 1) * k + i < (w.toNat + 1) * (k + 1) := by rw [Nat.mul_succ]; omega
    _ ≤ (w.toNat + 1) * cs.length := Nat.mul_le_mul_left _ hk

/-- Entry `k` of a sync-write begins at byte `7 + (width + 1) * k` of its packet (R70). -/
theorem syncFrame_getElem?_entry (addr w : Byte) (hw : w = 1 ∨ w = 2) {cs : List SyncCommand} {k : Nat}
    {c : SyncCommand} (h : cs[k]? = some c) (i : Nat) (hi : i < w.toNat + 1) :
    (frame 0xFE 0x83 ([addr, w] ++ syncEntries w cs))[7 + i + (w.toNat + 1) * k]? = (syncEntry w c)[i]? := by
  have hk : k < cs.length := (List.getElem?_eq_some_iff.mp h).1
  have hlt := syncEntries_index_lt w hw hk i hi
  have hidx : 7 + i + (w.toNat + 1) * k = 5 + ([addr, w].length + ((w.toNat + 1) * k + i)) := by
    simp only [List.length_cons, List.length_nil]
    omega
  rw [hidx, frame_getElem?_params _ _ _ _ (by rw [List.length_append]; omega),
    List.getElem?_append_right (Nat.le_add_right _ _), Nat.add_sub_cancel_left, syncEntries_getElem? w hw h i hi]

/-! ### The bytes of an entry -/

theorem lo8_eq_ofNat_mod (v : Nat) : lo8 v = BitVec.ofNat 8 (v % 256) := by
  apply BitVec.eq_of_toNat_eq
  simp

theorem hi8_eq_ofNat_mod (v : Nat) : hi8 v = BitVec.ofNat 8 (v / 256 % 256) := by
  apply BitVec.eq_of_toNat_eq
  simp

theorem syncEntry_getElem?_zero (w : Byte) (c : SyncCommand) : (syncEntry w c)[0]? = some c.id := by
  rw [syncEntry]
  split <;> rfl

theorem syncEntry_getElem?_one (w : Byte) (c : SyncCommand) :
    (syncEntry w c)[1]? = some (BitVec.ofNat 8 (c.value % 256)) := by
  rw [← lo8_eq_ofNat_mod, syncEntry]
  split <;> rfl

theorem syncEntry_getElem?_two (c : SyncCommand) :
    (syncEntry 2 c)[2]? = some (BitVec.ofNat 8 (c.value / 256 % 256)) := by
  rw [← hi8_eq_ofNat_mod]
  rfl

/-! ### The checksum of PING -/

/-- The worked form of PING's checksum, `252 - id` modulo 256 (R102). -/
theorem checksum_ping (id : Byte) : checksum [id, 0x02, 0x01] = 252 - id := by
  have hs : byteSum [id, 0x02, 0x01] = id.toNat + 3 := rfl
  apply BitVec.eq_of_toNat_eq
  rw [checksum_toNat, hs, BitVec.toNat_sub, show (252 : Byte).toNat = 252 from rfl]
  omega

/-! ### The statements -/

/-- Settles O7: the packet is a frame, so its entries lie at the indices of the frame's parameters. -/
theorem syncWriteBuildsItsPacket : Obligations.SyncWriteBuildsItsPacket := by
  intro addr width commands s hw hl
  have hp := syncParams_length addr width commands hw
  refine ⟨_, execSyncWrite_fits addr width commands s hw hl, ?_, ?_, frame_getLast? _ _ _, ?_⟩
  · rw [frame_length]
    simp only [syncLen] at hp
    omega
  · rw [frame_eq, hp]
    rfl
  · intro k c hk
    have hpos : 1 < width.toNat + 1 := by rcases hw with rfl | rfl <;> decide
    refine ⟨?_, ?_, ?_⟩
    · exact (syncFrame_getElem?_entry addr width hw hk 0 (by omega)).trans (syncEntry_getElem?_zero width c)
    · exact (syncFrame_getElem?_entry addr width hw hk 1 hpos).trans (syncEntry_getElem?_one width c)
    · rintro rfl
      exact (syncFrame_getElem?_entry addr 2 hw hk 2 (by decide)).trans (syncEntry_getElem?_two c)

/-- Settles O3: PING's frame has no parameters. -/
theorem pingBuildsItsPacket : Obligations.PingBuildsItsPacket := by
  intro id s
  constructor
  · rw [exec_ping, frame_eq]
    rfl
  · exact checksum_ping id

/-- Settles O4: READ's frame has the two parameters `addr` and `count`. -/
theorem readBuildsItsPacket : Obligations.ReadBuildsItsPacket := by
  intro id addr count s
  rw [exec_read, frame_eq]
  rfl

/-- Settles O5: WRITE8's frame has the two parameters `addr` and `value`. -/
theorem write8BuildsItsPacket : Obligations.Write8BuildsItsPacket := by
  intro id addr value s
  rw [exec_write8, frame_eq]
  rfl

/-- Settles O6: the two value bytes are `lo8` and `hi8` of a number below 65536. -/
theorem write16BuildsItsPacket : Obligations.Write16BuildsItsPacket := by
  intro id addr value s
  refine ⟨lo8 value.toNat, hi8 value.toNat, lo8_toNat _, ?_, ?_⟩
  · rw [hi8_toNat]
    omega
  · rw [exec_write16, frame_eq]
    rfl

end Sys2Proof.Machine
end

section
/-! PROOFS. The checksum operation of 40_checksum.md (R90): what it answers, and its value as a number. -/

namespace Sys2Proof.Machine

/-- `CHECKSUM` replies with one byte, and its reply is all it writes (R90). -/
theorem exec_checksum (bytes : List Byte) (s : State) :
    exec (.checksum bytes) s = .next (s.reply (.byte (checksum bytes))) := rfl

/-- The sum and the checksum together are 255 modulo 256 (R90). -/
theorem byteSum_add_checksum_mod (bytes : List Byte) :
    (byteSum bytes + (checksum bytes).toNat) % 256 = 255 := by
  rw [checksum_toNat]
  omega

/-- Settles O1: the byte answered is `checksum bytes`, and `byteSum` is the sum of the bytes as numbers. -/
theorem checksumIsComplementOfSum : Obligations.ChecksumIsComplementOfSum := by
  intro bytes s
  refine ⟨checksum bytes, exec_checksum bytes s, ?_, ?_⟩
  · rw [← byteSum_eq_sum, checksum_toNat]
  · rw [← byteSum_eq_sum, byteSum_add_checksum_mod]

end Sys2Proof.Machine
end

section
/-! PROOFS. The instruction builder of 41_instruction_builder.md: `FRAME` (R100), the width error of a sync-write
(R107), and the purity of the five builders (R112). -/

namespace Sys2Proof.Machine

/-! ### What `FRAME` and `SYNC_WRITE` answer -/

/-- `FRAME` answers for every parameter list that it is defined for (R100). -/
theorem exec_frame_fits (id code : Byte) (params : List Byte) (s : State) (h : params.length ≤ 253) :
    exec (.frame id code params) s = .next { s with outcome := .packet (frame id code params) } := by
  show s.replyFrame id code params = _
  rw [State.replyFrame_eq, if_pos h]

theorem exec_syncWrite (addr width : Byte) (commands : List SyncCommand) (s : State) :
    exec (.syncWrite addr width commands) s = execSyncWrite addr width commands s := rfl

/-! ### What a builder answers -/

/-- THE CASES of a builder. Each is the same in every state: it answers with one packet that the operands alone fix, or
it is a sync-write of an illegal width (R107), or one of a legal width whose list is too long (R109). -/
theorem exec_builder_cases {i : Instr} (hi : i.isBuilder = true) :
    (∃ p, ∀ s, exec i s = .next { s with outcome := .packet p })
    ∨ (∃ addr width cs, i = .syncWrite addr width cs ∧ width ≠ 1 ∧ width ≠ 2
        ∧ ∀ s, exec i s = .next { s with
            outcome := .raised (.decodingError (Config.reasonText s.drawn)) 0, drawn := s.drawn + 1 })
    ∨ (∃ addr width cs, i = .syncWrite addr width cs ∧ (width = 1 ∨ width = 2) ∧ 255 < syncLen width cs
        ∧ ∀ s, exec i s = .refused .syncWriteTooLong) := by
  cases i with
  | ping id => exact .inl ⟨_, exec_ping id⟩
  | read id addr count => exact .inl ⟨_, exec_read id addr count⟩
  | write8 id addr value => exact .inl ⟨_, exec_write8 id addr value⟩
  | write16 id addr value => exact .inl ⟨_, exec_write16 id addr value⟩
  | syncWrite addr width cs =>
    by_cases hw : width = 1 ∨ width = 2
    · rcases Nat.lt_or_ge 255 (syncLen width cs) with hl | hl
      · exact .inr (.inr ⟨_, _, _, rfl, hw, hl, fun s => execSyncWrite_tooLong addr width cs s hw hl⟩)
      · exact .inl ⟨_, fun s => execSyncWrite_fits addr width cs s hw hl⟩
    · obtain ⟨h1, h2⟩ := not_or.mp hw
      exact .inr (.inl ⟨_, _, _, rfl, h1, h2, fun s => execSyncWrite_badWidth addr width cs s h1 h2⟩)
  | status | checksum | frame | push | decode | clear | findHeader | classifyFlags | statusFrame | drain => cases hi

/-- A builder leaves RXBUF as it was (R112). -/
theorem exec_builder_keeps_rxbuf {i : Instr} (hi : i.isBuilder = true) {s t : State} (h : exec i s = .next t) :
    t.rxbuf = s.rxbuf := by
  obtain ⟨p, he⟩ | ⟨_, _, _, -, -, -, he⟩ | ⟨_, _, _, -, -, -, he⟩ := exec_builder_cases hi <;> rw [he s] at h
  · cases h
    rfl
  · cases h
    rfl
  · cases h

/-- The packet that a builder gives in one state, it gives in every state, and it writes nothing else (R112). -/
theorem exec_builder_packet_any_state {i : Instr} (hi : i.isBuilder = true) {s t : State} {p : List Byte}
    (h : exec i s = .next t) (hp : t.outcome = .packet p) (u : State) :
    exec i u = .next { u with outcome := .packet p } := by
  obtain ⟨q, he⟩ | ⟨_, _, _, -, -, -, he⟩ | ⟨_, _, _, -, -, -, he⟩ := exec_builder_cases hi <;> rw [he s] at h
  · cases h
    cases hp
    exact he u
  · cases h
    cases hp
  · cases h

/-- A builder gives a packet but for the two cases of R107 and R109 (R112). -/
theorem exec_builder_total {i : Instr} (hi : i.isBuilder = true) (s : State) :
    (∃ p, exec i s = .next { s with outcome := .packet p })
    ∨ (∃ addr width commands, i = .syncWrite addr width commands
        ∧ ((width ≠ 1 ∧ width ≠ 2) ∨ 255 < (width.toNat + 1) * commands.length + 4)) := by
  obtain ⟨p, he⟩ | ⟨_, _, _, hsync, h1, h2, -⟩ | ⟨_, _, _, hsync, -, hl, -⟩ := exec_builder_cases hi
  · exact .inl ⟨p, he s⟩
  · exact .inr ⟨_, _, _, hsync, .inl ⟨h1, h2⟩⟩
  · exact .inr ⟨_, _, _, hsync, .inr hl⟩

/-! ### The statements -/

/-- Settles O15: the three clauses, each read off the cases of a builder. -/
theorem buildersArePure : Obligations.BuildersArePure := by
  intro i hi
  exact ⟨fun _ _ => exec_builder_keeps_rxbuf hi,
    fun _ _ u _ h hp => exec_builder_packet_any_state hi h hp u, exec_builder_total hi⟩

/-- Settles O9: the width is checked before the list is looked at, and the reason is the next free text. -/
theorem syncWriteWidthError : Obligations.SyncWriteWidthError := by
  intro addr width commands s h1 h2
  have he := execSyncWrite_badWidth addr width commands s h1 h2
  rw [← exec_syncWrite] at he
  exact ⟨_, _, he, rfl, rfl, rfl, rfl, rfl⟩

/-- Settles O11: the LEN byte is `len(params) + 2`, which fits one byte. -/
theorem frameBuildsItsFrame : Obligations.FrameBuildsItsFrame := by
  intro id code params s h
  exact ⟨_, lenByte_toNat params h, exec_frame_fits id code params s h, frame_length id code params⟩

end Sys2Proof.Machine
end

section
/-! PROOFS. The receive side of 42_status_decoder.md: `PUSH` (R120), `FIND_HEADER` (R122), `STATUS_FRAME` (R124), the
six steps of `DECODE` (R126 to R133) and `CLEAR` (R139). -/

namespace Sys2Proof.Machine

/-! ### What the operations answer -/

theorem exec_push (bytes : List Byte) (s : State) : exec (.push bytes) s = s.receive bytes := rfl

/-- `PUSH` within the capacity appends its bytes, and clears the outcome (R120). -/
theorem exec_push_fits (bytes : List Byte) (s : State)
    (h : ∀ cap, s.params.bufCap = some cap → s.rxbuf.length + bytes.length ≤ cap) :
    exec (.push bytes) s = .next { s with rxbuf := s.rxbuf ++ bytes, outcome := .nothing } := by
  rw [exec_push, State.receive_eq, if_pos ((Params.fits_iff _ _).mpr h)]

/-- A `PUSH` that answers has appended its bytes, so an empty RXBUF then holds these bytes alone (R120, R139). -/
theorem exec_push_rxbuf {bytes : List Byte} {s t : State} (h : exec (.push bytes) s = .next t) :
    t.rxbuf = s.rxbuf ++ bytes := by
  obtain ⟨-, rfl⟩ := State.receive_next (s := s) h
  rfl

theorem exec_clear (s : State) : exec .clear s = .next { s with rxbuf := [], outcome := .nothing } := rfl

theorem exec_findHeader (bytes : List Byte) (s : State) :
    exec (.findHeader bytes) s = .next { s with outcome := .position (findHeader bytes) } := rfl

/-- `STATUS_FRAME` is `FRAME`, the parameter bound included (R124). -/
theorem exec_statusFrame (id e : Byte) (params : List Byte) (s : State) :
    exec (.statusFrame id e params) s = exec (.frame id e params) s := rfl

/-- `DECODE` hands over the result of its one pass over RXBUF (R125). -/
theorem exec_decode_of_pass {s : State} {r : DecodeResult} (h : decodeBuffer s.rxbuf = r) :
    exec .decode s = .next { s with rxbuf := r.rest, outcome := r.toReply } := by
  rw [exec_decode, h]

/-- Behind the bytes before its first header, a sequence begins with a header (R122, R127). -/
theorem drop_findHeader_front {b : List Byte} {p : Nat} (h : findHeader b = some p) :
    (b.drop p)[0]? = some 0xFF ∧ (b.drop p)[1]? = some 0xFF := by
  obtain ⟨hheader, -⟩ := (findHeader_eq_some_iff b p).mp h
  simpa only [List.getElem?_drop, Nat.add_zero] using hheader

/-! ### The statements -/

/-- Settles O31: step 5, the front being a whole frame. -/
theorem decodeRaisesChecksumError : Obligations.DecodeRaisesChecksumError := by
  intro s id len e check params tail hbuf hlen hwrong
  have hpass : decodeBuffer s.rxbuf =
      { outcome := .error .checksumError, consumed := 1,
        rest := 0xFF :: id :: len :: e :: (params ++ check :: tail) } := by
    rw [hbuf, decodeBuffer_frame _ _ _ _ _ _ hlen, if_pos hwrong]
  exact exec_decode_of_pass hpass

/-- Settles O32: step 6, the checksum having been found right in step 5. -/
theorem decodeRaisesStatusFault : Obligations.DecodeRaisesStatusFault := by
  intro s id len e check params tail hbuf hlen hright he
  have hpass : decodeBuffer s.rxbuf =
      { outcome := .error (.statusFault (classifyFlags e)), consumed := 4 + len.toNat, rest := tail } := by
    rw [hbuf, decodeBuffer_frame _ _ _ _ _ _ hlen, if_neg (not_not.mpr hright), if_pos he]
  exact exec_decode_of_pass hpass

/-- Settles O33: step 6 with no fault to report. -/
theorem decodeEmitsStatus : Obligations.DecodeEmitsStatus := by
  intro s id len check params tail hbuf hlen hright
  have hpass : decodeBuffer s.rxbuf =
      { outcome := .status id params, consumed := 4 + len.toNat, rest := tail } := by
    rw [hbuf, decodeBuffer_frame _ _ _ _ _ _ hlen, if_neg (not_not.mpr hright), if_neg (not_not.mpr rfl)]
  exact exec_decode_of_pass hpass

/-- Settles O44: both characterisations of the answer hold for every sequence, by recursion on it. -/
theorem findHeaderGivesTheLeastIndex : Obligations.FindHeaderGivesTheLeastIndex := by
  intro bytes s
  exact ⟨findHeader bytes, exec_findHeader bytes s, findHeader_eq_some_iff bytes, findHeader_eq_none_iff bytes⟩

/-- Settles O12: both operations answer the one frame. -/
theorem statusFrameIsFrame : Obligations.StatusFrameIsFrame := by
  intro id e params s h
  have hframe := exec_frame_fits id e params s h
  exact ⟨(exec_statusFrame id e params s).trans hframe, hframe⟩

/-- Settles O24: the bytes are not looked at, only counted. -/
theorem pushAppendsBytes : Obligations.PushAppendsBytes := exec_push_fits

/-- Settles O26: step 1 comes before the header test. -/
theorem decodeWaitsForFourBytes : Obligations.DecodeWaitsForFourBytes := by
  intro s hshort
  exact exec_decode_of_pass (decodeBuffer_short hshort)

/-- Settles O27: step 2, where a header stands further on; that it is not at index 0 is why bytes go. -/
theorem decodeResynchronises : Obligations.DecodeResynchronises := by
  intro s p h4 hfront hp
  exact ⟨findHeader_pos hfront hp, exec_decode_of_pass (decodeBuffer_resync h4 hfront hp), drop_findHeader_front hp⟩

/-- Settles O28: step 2, where no header stands anywhere. -/
theorem decodeDiscardsBufferWithoutHeader : Obligations.DecodeDiscardsBufferWithoutHeader := by
  intro s h4 hfront hnone
  exact exec_decode_of_pass (decodeBuffer_discard h4 hfront hnone)

/-- Settles O29: step 3 needs the LEN byte alone, so what follows it does not matter. -/
theorem decodeRaisesHeaderError : Obligations.DecodeRaisesHeaderError := by
  intro s id len tail hbuf hlen
  have hpass : decodeBuffer s.rxbuf =
      { outcome := .error .headerError, consumed := 1, rest := 0xFF :: id :: len :: tail } := by
    rw [hbuf, decodeBuffer_header, if_pos hlen]
  exact exec_decode_of_pass hpass

/-- Settles O30: step 4, the LEN byte having passed step 3. -/
theorem decodeWaitsForTheBody : Obligations.DecodeWaitsForTheBody := by
  intro s id len tail hbuf hlen htail
  have hpass : decodeBuffer s.rxbuf = { outcome := .incomplete, consumed := 0, rest := s.rxbuf } := by
    rw [hbuf, decodeBuffer_header, if_neg (Nat.not_lt.mpr hlen), if_pos htail]
  exact exec_decode_of_pass hpass

/-- Settles O37: the buffer after `CLEAR` is that of reset, and a later push appends to nothing. -/
theorem clearEmptiesTheBuffer : Obligations.ClearEmptiesTheBuffer := by
  intro s
  exact ⟨exec_clear s, rfl, fun _ _ => exec_push_rxbuf⟩

end Sys2Proof.Machine
end

section
/-! PROOFS. The error kinds of 60_exceptions.md: which of them the block raises (R151), and which are recoverable
(R163). -/

namespace Sys2Proof.Machine

/-- The kinds of the decoder's steps 3, 5 and 6 (R125, R151). -/
theorem ErrorKind.raisedByDecode_iff (kind : ErrorKind) :
    kind.raisedByDecode = true ↔ kind = .headerError ∨ kind = .checksumError ∨ ∃ flags, kind = .statusFault flags := by
  cases kind <;> simp [ErrorKind.raisedByDecode]

/-- The width error's kind, whatever its reason (R107, R151). -/
theorem ErrorKind.raisedBySyncWrite_iff (kind : ErrorKind) :
    kind.raisedBySyncWrite = true ↔ ∃ reason, kind = .decodingError reason := by
  cases kind <;> simp [ErrorKind.raisedBySyncWrite]

/-- The decoder raises no terminal kind (R151, R163). -/
theorem ErrorKind.recoverable_of_raisedByDecode {kind : ErrorKind} (h : kind.raisedByDecode = true) :
    kind.recoverable = true := by
  obtain rfl | rfl | ⟨flags, rfl⟩ := kind.raisedByDecode_iff.mp h <;> rfl

/-- The builder raises no terminal kind (R151, R163). -/
theorem ErrorKind.recoverable_of_raisedBySyncWrite {kind : ErrorKind} (h : kind.raisedBySyncWrite = true) :
    kind.recoverable = true := by
  obtain ⟨reason, rfl⟩ := kind.raisedBySyncWrite_iff.mp h
  rfl

/-- Settles O54: the nine kinds are read off the predicate's table, and the block raises none of the two terminal
ones. -/
theorem recoverableKinds : Obligations.RecoverableKinds := by
  have hraised : ∀ kind : ErrorKind,
      (kind.raisedByDecode = true ∨ kind.raisedBySyncWrite = true) → kind.recoverable = true := by
    rintro kind (hdecode | hsync)
    · exact ErrorKind.recoverable_of_raisedByDecode hdecode
    · exact ErrorKind.recoverable_of_raisedBySyncWrite hsync
  exact ⟨rfl, fun _ => rfl, rfl, rfl, rfl, fun _ => rfl, fun _ _ => rfl, rfl, rfl, hraised⟩

end Sys2Proof.Machine
end

section
/-! PROOFS. The instruction packets as encodings (30_encoding.md sections 2 and 7, 41_instruction_builder.md section
3): the frame of each builder, what the recogniser reads from it, and the agreement of layouts and builders. -/

namespace Sys2Proof.Machine

/-! ### The layout of each builder is a frame -/

theorem encode_ping (id : Byte) : encode (.ping id) = some (frame id 0x01 []) := rfl

theorem encode_read (id addr count : Byte) :
    encode (.read id addr count) = some (frame id 0x02 [addr, count]) := rfl

theorem encode_write8 (id addr value : Byte) :
    encode (.write8 id addr value) = some (frame id 0x03 [addr, value]) := rfl

theorem encode_write16 (id addr : Byte) (value : Word16) :
    encode (.write16 id addr value) = some (frame id 0x03 [addr, lo8 value.toNat, hi8 value.toNat]) := by
  rw [← word16_lo, ← word16_hi]
  rfl

/-- A sync-write has a packet exactly where its width is legal and its LEN fits one byte (R77, R109). -/
theorem encode_syncWrite_eq_none {addr width : Byte} {cs : List SyncCommand}
    (h : ¬ ((width = 1 ∨ width = 2) ∧ syncLen width cs ≤ 255)) : encode (.syncWrite addr width cs) = none := by
  rw [encode, if_neg]
  rwa [Bool.and_eq_true, syncWidthLegal_iff, decide_eq_true_eq]

theorem encode_syncWrite_fits {addr width : Byte} {cs : List SyncCommand} (hw : width = 1 ∨ width = 2)
    (hl : syncLen width cs ≤ 255) :
    encode (.syncWrite addr width cs) = some (frame 0xFE 0x83 ([addr, width] ++ syncEntries width cs)) := by
  rw [encode, if_pos, ← sealBody_eq_frame, syncParams_length addr width cs hw]
  · rfl
  · rw [Bool.and_eq_true, syncWidthLegal_iff, decide_eq_true_eq]
    exact ⟨hw, hl⟩

/-- The instruction codes of the five builders (R62). -/
def IsInstructionCode (code : Byte) : Prop := code = 0x01 ∨ code = 0x02 ∨ code = 0x03 ∨ code = 0x83

theorem IsInstructionCode.ne_zero {code : Byte} (h : IsInstructionCode code) : code ≠ 0 := by
  obtain rfl | rfl | rfl | rfl := h <;> decide

/-- THE TWO CASES of a builder and its layout: both give one frame with an instruction code, in every state; or neither
gives a packet, in any state. -/
theorem builder_encode_cases {i : Instr} (hi : i.isBuilder = true) :
    (∃ id code params, params.length ≤ 253 ∧ IsInstructionCode code ∧ encode i = some (frame id code params)
        ∧ ∀ s, exec i s = .next { s with outcome := .packet (frame id code params) })
    ∨ (encode i = none ∧ ∀ s t p, exec i s = .next t → t.outcome ≠ .packet p) := by
  cases i with
  | ping id => exact .inl ⟨_, _, _, by simp, .inl rfl, encode_ping id, exec_ping id⟩
  | read id addr count =>
    exact .inl ⟨_, _, _, by simp, .inr (.inl rfl), encode_read id addr count, exec_read id addr count⟩
  | write8 id addr value =>
    exact .inl ⟨_, _, _, by simp, .inr (.inr (.inl rfl)), encode_write8 id addr value, exec_write8 id addr value⟩
  | write16 id addr value =>
    exact .inl ⟨_, _, _, by simp, .inr (.inr (.inl rfl)), encode_write16 id addr value, exec_write16 id addr value⟩
  | syncWrite addr width cs =>
    by_cases hfits : (width = 1 ∨ width = 2) ∧ syncLen width cs ≤ 255
    · obtain ⟨hw, hl⟩ := hfits
      have hp := syncParams_length addr width cs hw
      exact .inl ⟨_, _, _, by omega, .inr (.inr (.inr rfl)), encode_syncWrite_fits hw hl,
        fun s => execSyncWrite_fits addr width cs s hw hl⟩
    · refine .inr ⟨encode_syncWrite_eq_none hfits, fun s t p h => ?_⟩
      rw [exec_syncWrite] at h
      by_cases hw : width = 1 ∨ width = 2
      · have hl : 255 < syncLen width cs := Nat.lt_of_not_le fun hl => hfits ⟨hw, hl⟩
        rw [execSyncWrite_tooLong addr width cs s hw hl] at h
        cases h
      · obtain ⟨h1, h2⟩ := not_or.mp hw
        rw [execSyncWrite_badWidth addr width cs s h1 h2] at h
        cases h
        simp
  | status | checksum | frame | push | decode | clear | findHeader | classifyFlags | statusFrame | drain => cases hi

/-- The packet a builder answers with is its layout, and a frame with an instruction code. -/
theorem builder_packet {i : Instr} (hi : i.isBuilder = true) {s t : State} {p : List Byte}
    (h : exec i s = .next t) (hp : t.outcome = .packet p) :
    encode i = some p ∧ ∃ id code params, params.length ≤ 253 ∧ IsInstructionCode code ∧ p = frame id code params := by
  obtain ⟨id, code, params, hlen, hcode, henc, hexec⟩ | ⟨-, hnone⟩ := builder_encode_cases hi
  · rw [hexec s] at h
    cases h
    cases hp
    exact ⟨henc, id, code, params, hlen, hcode, rfl⟩
  · exact absurd hp (hnone s t p h)

/-! ### Recognising the packet of each builder -/

/-- A frame is recognised by its fields: as one of the instruction rows, else as the status packet it is (R84). -/
theorem decode_frame (id code : Byte) (params rest : List Byte) (h : params.length ≤ 253) :
    decode (frame id code params ++ rest) =
      ((recogniseInstruction
          { id := id, len := BitVec.ofNat 8 (params.length + 2), code := code, params := params,
            check := checksum (id :: BitVec.ofNat 8 (params.length + 2) :: code :: params), rest := rest }).or
        (some (.status id code params))).map fun i => (i, rest) := by
  rw [← sealBody_eq_frame, decode_sealBody _ _ _ _ _ (lenByte_toNat params h)]

theorem recogniseInstruction_sync {p : Packet} (hid : p.id = 0xFE) (hcode : p.code = 0x83) :
    recogniseInstruction p = parseSync p.params := by
  rw [recogniseInstruction, hid, hcode]
  simp

theorem decode_syncFrame (addr width : Byte) (cs : List SyncCommand) (rest : List Byte) (hw : width = 1 ∨ width = 2)
    (hl : syncLen width cs ≤ 255) :
    decode (frame 0xFE 0x83 ([addr, width] ++ syncEntries width cs) ++ rest)
      = some (.syncWrite addr width (cs.map (truncateCommand width)), rest) := by
  have hp := syncParams_length addr width cs hw
  rw [decode_frame _ _ _ _ (by omega), recogniseInstruction_sync rfl rfl]
  simp [parseSync_syncEntries addr width cs hw]

/-- The packet of a builder is recognised as the builder's operation, its sync-write values cut to the width (R74,
R113). -/
theorem decode_encode_builder {i : Instr} {p : List Byte} (rest : List Byte) (hi : i.isBuilder = true)
    (h : encode i = some p) : decode (p ++ rest) = some (i.canonical, rest) := by
  cases i with
  | ping id =>
    rw [encode_ping] at h
    cases h
    rw [decode_frame _ _ _ _ (by simp)]
    rfl
  | read id addr count =>
    rw [encode_read] at h
    cases h
    rw [decode_frame _ _ _ _ (by simp)]
    rfl
  | write8 id addr value =>
    rw [encode_write8] at h
    cases h
    rw [decode_frame _ _ _ _ (by simp)]
    rfl
  | write16 id addr value =>
    rw [encode_write16, ← word16_lo, ← word16_hi] at h
    cases h
    rw [decode_frame _ _ _ _ (by simp)]
    show some (Instr.write16 id addr (value.extractLsb' 8 8 ++ value.extractLsb' 0 8), rest) = _
    rw [word16_halves]
    rfl
  | syncWrite addr width cs =>
    by_cases hfits : (width = 1 ∨ width = 2) ∧ syncLen width cs ≤ 255
    · rw [encode_syncWrite_fits hfits.1 hfits.2] at h
      cases h
      exact decode_syncFrame addr width cs rest hfits.1 hfits.2
    · rw [encode_syncWrite_eq_none hfits] at h
      cases h
  | status | checksum | frame | push | decode | clear | findHeader | classifyFlags | statusFrame | drain => cases hi

/-! ### Cutting values that fit changes nothing -/

theorem truncateCommand_eq_self {width : Byte} {c : SyncCommand} (h : c.value < 2 ^ (8 * width.toNat)) :
    truncateCommand width c = c := by
  rw [truncateCommand, Nat.mod_eq_of_lt h]

/-- An operation whose sync-write values fit the width is its own canonical form (R74). -/
theorem canonical_eq_self {i : Instr}
    (h : ∀ addr width commands, i = .syncWrite addr width commands → ∀ c ∈ commands, c.value < 2 ^ (8 * width.toNat)) :
    i.canonical = i := by
  cases i with
  | syncWrite addr width cs =>
    have hmap : cs.map (truncateCommand width) = cs.map id :=
      List.map_congr_left fun c hc => truncateCommand_eq_self (h addr width cs rfl c hc)
    rw [Instr.canonical, hmap, List.map_id]
  | ping | read | write8 | write16 | status | checksum | frame | push | decode | clear | findHeader | classifyFlags
  | statusFrame | drain => rfl

/-! ### The statements -/

/-- Settles O18: the packet is recognised as the canonical form, which is the operation itself where the values fit. -/
theorem decodeOfEncodedBuilder : Obligations.DecodeOfEncodedBuilder := by
  intro i p rest hi henc
  have hdec := decode_encode_builder rest hi henc
  refine ⟨hdec, fun hfit => ?_⟩
  rwa [canonical_eq_self hfit] at hdec

/-- Settles O17: layout and builder give the same frame, or both give no packet. -/
theorem layoutsAgreeWithBuilders : Obligations.LayoutsAgreeWithBuilders := by
  intro i s p hi
  constructor
  · intro henc
    obtain ⟨id, code, params, -, -, henc', hexec⟩ | ⟨hnone, -⟩ := builder_encode_cases hi
    · rw [henc'] at henc
      cases henc
      exact hexec s
    · rw [hnone] at henc
      cases henc
  · intro hexec
    exact (builder_packet hi hexec rfl).1

/-- Settles O16: one packet is recognised as one operation, so both have the same canonical form. -/
theorem buildersAreInjective : Obligations.BuildersAreInjective := by
  intro i j s t u v p hi hj hexec hp hexec' hp'
  have hdec := decode_encode_builder [] hi (builder_packet hi hexec hp).1
  have hdec' := decode_encode_builder [] hj (builder_packet hj hexec' hp').1
  rw [hdec] at hdec'
  simpa using hdec'

/-- Settles O14: a builder's packet is a frame whose parameters fit, and such a frame has the invariants. -/
theorem builtPacketsAreFrames : Obligations.BuiltPacketsAreFrames := by
  intro i s t p hi hexec hp
  obtain ⟨-, id, code, params, hlen, -, rfl⟩ := builder_packet hi hexec hp
  have hlast := frame_getLast? id code params
  rw [List.getLast?_eq_getElem?] at hlast
  refine ⟨rfl, rfl, ⟨_, rfl, ?_⟩, hlast, ?_, ?_⟩
  · refine (lenByte_toNat params hlen).trans ?_
    rw [frame_length]
    omega
  · rw [frame_length]
    omega
  · rw [frame_length]
    omega

/-- Settles O20: the six packets are evaluated. -/
theorem decodeOfWrittenPackets : Obligations.DecodeOfWrittenPackets := by
  unfold Obligations.DecodeOfWrittenPackets
  decide

end Sys2Proof.Machine
end

section
/-! PROOFS. The status packets as encodings (30_encoding.md sections 4 and 7): which of them have the bytes of an
instruction packet, and how each is recognised. -/

namespace Sys2Proof.Machine

/-! ### The status packets that have the bytes of an instruction packet -/

/-- The five layouts of R66 to R70, with the parameters of each written out (R80). -/
theorem sharesInstructionPacket_iff (id e : Byte) (params : List Byte) :
    sharesInstructionPacket id e params = true ↔
      (e = 0x01 ∧ params = [])
      ∨ (e = 0x02 ∧ ∃ addr count, params = [addr, count])
      ∨ (e = 0x03 ∧ ∃ addr value, params = [addr, value])
      ∨ (e = 0x03 ∧ ∃ addr lo hi, params = [addr, lo, hi])
      ∨ (e = 0x83 ∧ id = 0xFE ∧ ∃ addr width entries, params = addr :: width :: entries
          ∧ ((width = 1 ∧ entries.length % 2 = 0) ∨ (width = 2 ∧ entries.length % 3 = 0))) := by
  unfold sharesInstructionPacket
  match params with
  | [] => simp
  | [_] => simp
  | [addr, width] => simp [or_assoc]
  | [addr, width, v] => simp
  | addr :: width :: a :: b :: entries => simp

/-- A word16 put together from two bytes, taken apart again (R40). -/
theorem lo8_append (hi lo : Byte) : lo8 (hi ++ lo : BitVec (8 + 8)).toNat = lo := by
  rw [← word16_lo]
  exact BitVec.extractLsb'_append_eq_right

theorem hi8_append (hi lo : Byte) : hi8 (hi ++ lo : BitVec (8 + 8)).toNat = hi := by
  rw [← word16_hi]
  exact BitVec.extractLsb'_append_eq_left

/-- Whole entries of a legal width are the entries of some list of commands (R70). -/
theorem exists_syncEntries_eq {width : Byte} {entries : List Byte}
    (h : (width = 1 ∧ entries.length % 2 = 0) ∨ (width = 2 ∧ entries.length % 3 = 0)) :
    (width = 1 ∨ width = 2) ∧ ∃ cs, syncEntries width cs = entries := by
  obtain ⟨rfl, hwhole⟩ | ⟨rfl, hwhole⟩ := h
  · obtain ⟨cs, -, hcs⟩ := (parseEntries8_iff entries).1 hwhole
    exact ⟨.inl rfl, cs, hcs⟩
  · obtain ⟨cs, -, hcs⟩ := (parseEntries16_iff entries).1 hwhole
    exact ⟨.inr rfl, cs, hcs⟩

/-- A frame with the layout of an instruction packet is the packet of a builder (R80). -/
theorem exists_builder_of_shares {id e : Byte} {params : List Byte} (hlen : params.length ≤ 253)
    (h : sharesInstructionPacket id e params = true) :
    ∃ i : Instr, i.isBuilder = true ∧ encode i = some (frame id e params) := by
  obtain ⟨rfl, rfl⟩ | ⟨rfl, addr, count, rfl⟩ | ⟨rfl, addr, value, rfl⟩ | ⟨rfl, addr, lo, hi, rfl⟩
    | ⟨rfl, rfl, addr, width, entries, rfl, hwhole⟩ := (sharesInstructionPacket_iff id e params).mp h
  · exact ⟨.ping id, rfl, encode_ping id⟩
  · exact ⟨.read id addr count, rfl, encode_read id addr count⟩
  · exact ⟨.write8 id addr value, rfl, encode_write8 id addr value⟩
  · refine ⟨.write16 id addr (hi ++ lo), rfl, ?_⟩
    rw [encode_write16, lo8_append, hi8_append]
  · obtain ⟨hw, cs, rfl⟩ := exists_syncEntries_eq hwhole
    have hp := syncParams_length addr width cs hw
    have hl : syncLen width cs ≤ 255 := by
      simp only [List.cons_append, List.nil_append] at hp
      omega
    exact ⟨.syncWrite addr width cs, rfl, encode_syncWrite_fits hw hl⟩

/-- Only whole entries of a legal width are read as a sync-write (R70, R77). -/
theorem parseSync_eq_some {params : List Byte} {i : Instr} (h : parseSync params = some i) :
    ∃ addr width entries, params = addr :: width :: entries
      ∧ ((width = 1 ∧ entries.length % 2 = 0) ∨ (width = 2 ∧ entries.length % 3 = 0)) := by
  match params with
  | addr :: width :: entries =>
    refine ⟨addr, width, entries, rfl, ?_⟩
    rw [parseSync] at h
    split at h
    · next hw =>
      refine .inl ⟨hw, Decidable.byContradiction fun hpart => ?_⟩
      rw [(parseEntries8_iff entries).2 hpart] at h
      cases h
    · split at h
      · next hw =>
        refine .inr ⟨hw, Decidable.byContradiction fun hpart => ?_⟩
        rw [(parseEntries16_iff entries).2 hpart] at h
        cases h
      · cases h

/-- A frame that an instruction row recognises has the layout of an instruction packet (R80, R84). -/
theorem shares_of_recogniseInstruction {p : Packet} {i : Instr} (hlen : p.len.toNat = p.params.length + 2)
    (h : recogniseInstruction p = some i) : sharesInstructionPacket p.id p.code p.params = true := by
  rw [sharesInstructionPacket_iff]
  unfold recogniseInstruction at h
  split at h
  · next hrow =>
    rw [hrow.1] at hlen
    exact .inl ⟨hrow.2, List.length_eq_zero_iff.mp (Nat.succ.inj (Nat.succ.inj hlen)).symm⟩
  split at h
  · next hrow =>
    split at h
    · next hparams => exact .inr (.inl ⟨hrow.2, _, _, hparams⟩)
    · cases h
  split at h
  · next hrow =>
    split at h
    · next hparams => exact .inr (.inr (.inl ⟨hrow.2, _, _, hparams⟩))
    · cases h
  split at h
  · next hrow =>
    split at h
    · next hparams => exact .inr (.inr (.inr (.inl ⟨hrow.2, _, _, _, hparams⟩)))
    · cases h
  split at h
  · next hrow => exact .inr (.inr (.inr (.inr ⟨hrow.2, hrow.1, parseSync_eq_some h⟩)))
  · cases h

/-! ### Recognising a status packet -/

/-- Only a status packet that a frame can carry has an encoding, and that is its frame (R61, R63). -/
theorem encode_status_eq_some {id e : Byte} {params p : List Byte} (h : encode (.status id e params) = some p) :
    params.length ≤ 253 ∧ p = frame id e params := by
  rw [encode] at h
  split at h
  · next hwf =>
    cases h
    exact ⟨by simpa [wfParams] using hwf, rfl⟩
  · cases h

/-- A packet carries no bits beyond the width, so cutting the values leaves the packet as it is (R74). -/
theorem encode_canonical (i : Instr) : encode i.canonical = encode i := by
  cases i with
  | syncWrite addr width cs =>
    have hlen : syncLen width (cs.map (truncateCommand width)) = syncLen width cs := by simp [syncLen]
    by_cases hw : width = 1 ∨ width = 2
    · rw [Instr.canonical, encode, encode, hlen, syncEntries_truncate width cs hw]
    · rw [Instr.canonical, encode_syncWrite_eq_none (fun h => hw h.1), encode_syncWrite_eq_none (fun h => hw h.1)]
  | ping | read | write8 | write16 | status | checksum | frame | push | decode | clear | findHeader | classifyFlags
  | statusFrame | drain => rfl

theorem isBuilder_canonical (i : Instr) : i.canonical.isBuilder = i.isBuilder := by cases i <;> rfl

/-- Settles O19: no instruction row reads the frame of an unshared status packet; the builder whose frame a shared one
is, is read back in its canonical form. -/
theorem decodeOfEncodedStatus : Obligations.DecodeOfEncodedStatus := by
  intro id e params p rest henc
  obtain ⟨hlen, rfl⟩ := encode_status_eq_some henc
  constructor
  · intro hunshared
    rw [decode_frame id e params rest hlen]
    cases hrow : recogniseInstruction _ with
    | none => rfl
    | some i =>
      have hshared := shares_of_recogniseInstruction (lenByte_toNat params hlen) hrow
      rw [hunshared] at hshared
      cases hshared
  · intro hshared
    obtain ⟨i, hi, hframe⟩ := exists_builder_of_shares hlen hshared
    exact ⟨i.canonical, (isBuilder_canonical i).trans hi, (encode_canonical i).trans hframe,
      decode_encode_builder rest hi hframe⟩

end Sys2Proof.Machine
end

section
/-! PROOFS. The laws of the checksum (40_checksum.md section 2), and what a sync-write and a frame do with operands that
no packet carries (R74, R100, R109). -/

namespace Sys2Proof.Machine

/-! ### Laws of the checksum -/

/-- The order of the bytes does not matter. -/
theorem checksum_append_comm (a b : List Byte) : checksum (a ++ b) = checksum (b ++ a) := by
  rw [checksum_eq_iff, byteSum_append, byteSum_append, Nat.add_comm]

/-- One more byte is subtracted. -/
theorem checksum_concat (a : List Byte) (x : Byte) : checksum (a ++ [x]) = checksum a - x := by
  have hsum : byteSum (a ++ [x]) = byteSum a + x.toNat := by simp
  apply BitVec.eq_of_toNat_eq
  rw [BitVec.toNat_sub, checksum_toNat, checksum_toNat, hsum]
  omega

/-- A sequence with its checksum behind it has the checksum 0. -/
theorem checksum_concat_checksum (b : List Byte) : checksum (b ++ [checksum b]) = 0 := by
  rw [checksum_concat, BitVec.sub_self]
  rfl

/-- A change of one byte is seen: the two bytes differ by less than 256. -/
theorem checksum_ne_of_byte_ne (a b : List Byte) {x y : Byte} (h : x ≠ y) :
    checksum (a ++ x :: b) ≠ checksum (a ++ y :: b) := by
  intro heq
  rw [checksum_eq_iff] at heq
  simp only [byteSum_append, byteSum_cons] at heq
  exact h (BitVec.eq_of_toNat_eq (by omega))

/-- Overwriting one byte with another is seen. -/
theorem checksum_set_ne (l : List Byte) (i : Nat) (x : Byte) (hi : i < l.length) (hx : l[i]? ≠ some x) :
    checksum (l.set i x) ≠ checksum l := by
  have hne : x ≠ l[i] := fun h => hx (by rw [h, List.getElem?_eq_getElem hi])
  have hl : l = l.take i ++ l[i] :: l.drop (i + 1) := by rw [List.getElem_cons_drop, List.take_append_drop]
  rw [List.set_eq_take_append_cons_drop, if_pos hi]
  conv_rhs => rw [hl]
  exact checksum_ne_of_byte_ne _ _ hne

/-- Settles O2: each law is one about the sum of the bytes modulo 256. -/
theorem checksumLaws : Obligations.ChecksumLaws :=
  ⟨checksum_append_comm, checksum_concat, checksum_concat_checksum, fun a b _ _ => checksum_ne_of_byte_ne a b⟩

/-! ### Sync-writes -/

theorem syncLen_map (width : Byte) (cs : List SyncCommand) (f : SyncCommand → SyncCommand) :
    syncLen width (cs.map f) = syncLen width cs := by
  rw [syncLen, syncLen, List.length_map]

/-- Settles O8: the entries are the same and so is the length, whether the list fits or not. -/
theorem syncWriteTruncatesValues : Obligations.SyncWriteTruncatesValues := by
  intro addr width cs s hw
  show exec (.syncWrite addr width cs) s = exec (.syncWrite addr width (cs.map (truncateCommand width))) s
  have hlen := syncLen_map width cs (truncateCommand width)
  rw [exec_syncWrite, exec_syncWrite]
  rcases Nat.lt_or_ge 255 (syncLen width cs) with hl | hl
  · rw [execSyncWrite_tooLong _ _ _ _ hw hl, execSyncWrite_tooLong _ _ _ _ hw (by omega)]
  · rw [execSyncWrite_fits _ _ _ _ hw hl, execSyncWrite_fits _ _ _ _ hw (by omega), syncEntries_truncate width cs hw]

/-- A sync-write of a legal width is refused exactly where its LEN does not fit one byte (R109). -/
theorem exec_syncWrite_refused_iff (addr width : Byte) (cs : List SyncCommand) (s : State)
    (hw : width = 1 ∨ width = 2) :
    exec (.syncWrite addr width cs) s = .refused .syncWriteTooLong ↔ 255 < syncLen width cs := by
  rw [exec_syncWrite]
  constructor
  · intro hrefused
    by_contra hl
    rw [execSyncWrite_fits _ _ _ _ hw (Nat.not_lt.mp hl)] at hrefused
    cases hrefused
  · exact execSyncWrite_tooLong addr width cs s hw

/-- Settles O10: `2 * count + 4` and `3 * count + 4` are at most 255 up to 125 and 83 commands. -/
theorem syncWriteTooLongIsRefused : Obligations.SyncWriteTooLongIsRefused := by
  intro addr width cs s
  constructor
  · rintro rfl
    rw [exec_syncWrite_refused_iff addr 1 cs s (.inl rfl), syncLen, show (1 : Byte).toNat = 1 from rfl]
    omega
  · rintro rfl
    rw [exec_syncWrite_refused_iff addr 2 cs s (.inr rfl), syncLen, show (2 : Byte).toNat = 2 from rfl]
    omega

/-! ### Frames that do not exist -/

/-- `FRAME` is refused for a parameter list it is not defined for (R100). -/
theorem exec_frame_tooLong (id code : Byte) (params : List Byte) (s : State) (h : 253 < params.length) :
    exec (.frame id code params) s = .refused .frameTooLong := by
  show s.replyFrame id code params = _
  rw [State.replyFrame_eq, if_neg (Nat.not_le.mpr h)]

theorem exec_status (id e : Byte) (params : List Byte) (s : State) :
    exec (.status id e params) s = execStatus id e params s := rfl

/-- Settles O13: each of the three tests the length of the parameters before anything else. -/
theorem overlongFrameIsRefused : Obligations.OverlongFrameIsRefused := by
  intro id e params s h
  have hframe := exec_frame_tooLong id e params s h
  refine ⟨hframe, (exec_statusFrame id e params s).trans hframe, ?_⟩
  rw [exec_status, execStatus_eq, if_neg (Nat.not_le.mpr h)]

end Sys2Proof.Machine
end

section
/-! PROOFS. What one `DECODE` can do, by the phase of RXBUF (42_status_decoder.md sections 4 and 5): what it consumes
(R135, R136), and the progress that a run of them makes (R137). -/

namespace Sys2Proof.Machine

/-! ### The phase decides -/

/-- THE CASES of one pass by phase (R135): it waits; it drops the bytes before the next header, or all; it refuses the
LEN; or it judges a whole frame. -/
theorem decodeBuffer_phase_cases (b : List Byte) :
    ((phase b = .awaitingLengthBytes ∧ b.length < 4 ∨ phase b = .awaitingBody)
        ∧ decodeBuffer b = { outcome := .incomplete, consumed := 0, rest := b })
    ∨ (phase b = .seekingHeader ∧ ∃ n, 1 ≤ n
        ∧ (b.drop n = [] ∨ ((b.drop n)[0]? = some 0xFF ∧ (b.drop n)[1]? = some 0xFF))
        ∧ decodeBuffer b = { outcome := .incomplete, consumed := n, rest := b.drop n })
    ∨ (phase b = .badLength ∧ decodeBuffer b = { outcome := .error .headerError, consumed := 1, rest := b.drop 1 })
    ∨ (phase b = .emit ∧ ∃ len : Byte, b[3]? = some len
        ∧ (decodeBuffer b = { outcome := .error .checksumError, consumed := 1, rest := b.drop 1 }
          ∨ (∃ flags rest, decodeBuffer b =
              { outcome := .error (.statusFault flags), consumed := 4 + len.toNat, rest := rest })
          ∨ (∃ id params rest, params.length + 2 = len.toNat
              ∧ decodeBuffer b = { outcome := .status id params, consumed := 4 + len.toNat, rest := rest }))) := by
  rcases decodeBuffer_cases b with ⟨hshort, h⟩ | ⟨h4, hfront, -, h⟩ | ⟨p, h4, hfront, hp, h⟩
    | ⟨id, len, tail, rfl, hlen, h⟩ | ⟨id, len, tail, rfl, hlen, htail, h⟩
    | ⟨id, len, e, params, check, rest, rfl, hlen, -, h⟩ | ⟨id, len, e, params, check, rest, rfl, hlen, -, -, h⟩
    | ⟨id, len, params, check, rest, rfl, hlen, -, h⟩
  · exact .inl ⟨.inl ⟨phase_short hshort, hshort⟩, h⟩
  · have hall : b.drop b.length = [] := List.drop_length
    exact .inr (.inl ⟨phase_seeking h4 hfront, b.length, by omega, .inl hall, by rw [h, hall]⟩)
  · exact .inr (.inl ⟨phase_seeking h4 hfront, p, findHeader_pos hfront hp, .inr (drop_findHeader_front hp), h⟩)
  · exact .inr (.inr (.inl ⟨by rw [phase_header, if_pos hlen], h⟩))
  · exact .inl ⟨.inr (by rw [phase_header, if_neg (Nat.not_lt.mpr hlen), if_pos htail]), h⟩
  · exact .inr (.inr (.inr ⟨phase_frame _ _ _ _ _ _ hlen, len, rfl, .inl h⟩))
  · exact .inr (.inr (.inr ⟨phase_frame _ _ _ _ _ _ hlen, len, rfl, .inr (.inl ⟨_, rest, h⟩)⟩))
  · exact .inr (.inr (.inr ⟨phase_frame _ _ _ _ _ _ hlen, len, rfl, .inr (.inr ⟨id, params, rest, hlen.symm, h⟩)⟩))

/-- A pass in a waiting phase changes nothing (R126, R130). -/
theorem decodeBuffer_waiting {b : List Byte} (h : phase b = .awaitingLengthBytes ∨ phase b = .awaitingBody) :
    decodeBuffer b = { outcome := .incomplete, consumed := 0, rest := b } := by
  obtain ⟨-, hpass⟩ | ⟨hphase, -⟩ | ⟨hphase, -⟩ | ⟨hphase, -⟩ := decodeBuffer_phase_cases b
  · exact hpass
  all_goals
    rw [hphase] at h
    simp at h

/-- A pass consumes nothing exactly in a waiting phase (R136). -/
theorem decodeBuffer_consumed_eq_zero_iff (b : List Byte) :
    (decodeBuffer b).consumed = 0 ↔ (phase b = .awaitingLengthBytes ∨ phase b = .awaitingBody) :=
  ⟨phase_of_zero, fun h => by rw [decodeBuffer_waiting h]⟩

/-- A pass that consumes nothing changes nothing (R136). -/
theorem decodeBuffer_of_consumed_eq_zero {b : List Byte} (h : (decodeBuffer b).consumed = 0) :
    decodeBuffer b = { outcome := .incomplete, consumed := 0, rest := b } :=
  decodeBuffer_waiting (phase_of_zero h)

/-- An `Incomplete` that consumed bytes comes from step 2 (R136). -/
theorem phase_of_incomplete {b : List Byte} (ho : (decodeBuffer b).outcome = .incomplete)
    (hc : (decodeBuffer b).consumed ≠ 0) : phase b = .seekingHeader := by
  obtain ⟨-, hpass⟩ | ⟨hphase, -⟩ | ⟨-, hpass⟩ | ⟨-, _, -, hpass | ⟨_, _, hpass⟩ | ⟨_, _, _, -, hpass⟩⟩ :=
    decodeBuffer_phase_cases b
  · rw [hpass] at hc
    exact absurd rfl hc
  · exact hphase
  all_goals
    rw [hpass] at ho
    cases ho

/-- Every decode error consumes (R137). -/
theorem decodeBuffer_error_consumed {b : List Byte} {kind : ErrorKind} (h : (decodeBuffer b).outcome = .error kind) :
    ((kind = .headerError ∨ kind = .checksumError) ∧ (decodeBuffer b).consumed = 1)
    ∨ ((∃ flags, kind = .statusFault flags) ∧ 6 ≤ (decodeBuffer b).consumed) := by
  obtain ⟨hkind, hn, -⟩ | ⟨_, len, e, _, params, _, -, hlen, ⟨hkind, hn, -⟩ | ⟨hkind, hn, -⟩⟩ := decodeBuffer_cause h
  · exact .inl ⟨.inl hkind, hn⟩
  · exact .inl ⟨.inr hkind, hn⟩
  · exact .inr ⟨⟨_, hkind⟩, by omega⟩

/-! ### The answer to HOST -/

theorem DecodeResult.toReply_eq_incomplete_iff (r : DecodeResult) (n : Nat) :
    r.toReply = .incomplete n ↔ r.outcome = .incomplete ∧ r.consumed = n := by
  obtain ⟨o, c, b⟩ := r
  cases o <;> simp [DecodeResult.toReply]

theorem DecodeResult.toReply_eq_raised_iff (r : DecodeResult) (kind : ErrorKind) (n : Nat) :
    r.toReply = .raised kind n ↔ r.outcome = .error kind ∧ r.consumed = n := by
  obtain ⟨o, c, b⟩ := r
  cases o <;> simp [DecodeResult.toReply]

/-- The answer to a pass is of one of the decoder's three forms and carries the bytes consumed (R125). -/
theorem DecodeResult.toReply_cases (r : DecodeResult) :
    r.toReply = .incomplete r.consumed ∨ (∃ id params, r.toReply = .status id params r.consumed)
      ∨ (∃ kind, r.toReply = .raised kind r.consumed) := by
  obtain ⟨o, c, b⟩ := r
  cases o with
  | incomplete => exact .inl rfl
  | status id params => exact .inr (.inl ⟨id, params, rfl⟩)
  | error kind => exact .inr (.inr ⟨kind, rfl⟩)

/-- A `DECODE` that consumes nothing answers so and changes nothing else (R136). -/
theorem exec_decode_waiting {s : State} (h : (decodeBuffer s.rxbuf).consumed = 0) :
    exec .decode s = .next { s with outcome := .incomplete 0 } :=
  exec_decode_of_pass (decodeBuffer_of_consumed_eq_zero h)

/-- Settles O34: each clause is one about the pass over the buffer. -/
theorem decodeShrinksTheBuffer : Obligations.DecodeShrinksTheBuffer := by
  intro s
  obtain ⟨hrest, hle⟩ := decodeBuffer_rest s.rxbuf
  have hexec := exec_decode s
  rw [hrest] at hexec
  refine ⟨_, _, hexec, hle, DecodeResult.toReply_cases _, decodeBuffer_consumed_eq_zero_iff _, fun hzero => ?_,
    fun hreply hsome => ?_⟩
  · have hsame := decodeBuffer_of_consumed_eq_zero hzero
    rw [hsame]
    exact ⟨rfl, exec_decode_of_pass hsame⟩
  · exact phase_of_incomplete ((DecodeResult.toReply_eq_incomplete_iff _ _).mp hreply).1 hsome

/-- Settles O48: the cases of a pass by phase, the phases being distinct. -/
theorem phaseDecidesTheOutcome : Obligations.PhaseDecidesTheOutcome := by
  intro s
  refine ⟨_, exec_decode s, ?_⟩
  obtain ⟨hphase, hpass⟩ | ⟨hphase, n, hn, hfront, hpass⟩ | ⟨hphase, hpass⟩
    | ⟨hphase, len, hlenByte, hpass⟩ := decodeBuffer_phase_cases s.rxbuf
  · rw [hpass]
    obtain ⟨hphase, -⟩ | hphase := hphase <;> rw [hphase] <;> simp [DecodeResult.toReply]
  · rw [hpass, hphase]
    exact ⟨by simp, fun _ => ⟨n, hn, rfl, hfront⟩, by simp, by simp, by simp⟩
  · rw [hpass, hphase]
    simp [DecodeResult.toReply]
  · refine ⟨by simp [hphase], by simp [hphase], by simp [hphase], by simp [hphase], fun _ len' hlenByte' => ?_⟩
    obtain rfl : len = len' := by simpa [hlenByte] using hlenByte'
    obtain hpass | ⟨flags, rest, hpass⟩ | ⟨id, params, rest, hlen, hpass⟩ := hpass <;> rw [hpass]
    · exact .inl rfl
    · exact .inr (.inl ⟨flags, rfl⟩)
    · exact .inr (.inr ⟨id, params, rfl, hlen⟩)

/-! ### Progress -/

/-- A step whose next move is `DECODE` is one pass over RXBUF (R125). -/
theorem step_call_decode (s : State) (later : List Move) :
    step { s with moves := .call .decode :: later } =
      .next { s with rxbuf := (decodeBuffer s.rxbuf).rest, outcome := (decodeBuffer s.rxbuf).toReply,
                     moves := later } :=
  exec_decode { s with moves := later }

/-- A run of `DECODE`s comes to one that consumes nothing, within one pass more than RXBUF has bytes (R137). -/
theorem run_decodes_reaches_waiting (s : State) :
    ∃ (k : Nat) (t : State), 1 ≤ k ∧ k ≤ s.rxbuf.length + 1
      ∧ Host.Core.run Sys2Proof.core k { s with moves := List.replicate k (.call .decode) } = Host.Outcome.next t
      ∧ t.moves = [] ∧ t.outcome = .incomplete 0 ∧ (decodeBuffer t.rxbuf).consumed = 0 := by
  induction hn : s.rxbuf.length using Nat.strong_induction_on generalizing s with
  | _ n ih =>
    by_cases hzero : (decodeBuffer s.rxbuf).consumed = 0
    · have hstep := step_call_decode s []
      rw [decodeBuffer_of_consumed_eq_zero hzero] at hstep
      exact ⟨1, _, le_rfl, by omega, run_succ_of_next Sys2Proof.core 0 _ _ hstep, rfl, rfl, hzero⟩
    · obtain ⟨hrest, hle⟩ := decodeBuffer_rest s.rxbuf
      have hshorter : (decodeBuffer s.rxbuf).rest.length < n := by
        rw [hrest, List.length_drop]
        omega
      obtain ⟨k, t, -, hk, hrun, hend⟩ := ih _ hshorter
        { s with rxbuf := (decodeBuffer s.rxbuf).rest, outcome := (decodeBuffer s.rxbuf).toReply } rfl
      have hstep := step_call_decode s (List.replicate k (.call .decode))
      refine ⟨k + 1, t, by omega, by omega, ?_, hend⟩
      rw [← hrun]
      exact run_succ_of_next Sys2Proof.core k _ _ hstep

/-- A waiting phase is a short buffer or an unfinished frame (R126, R130). -/
theorem short_or_awaitingBody_of_consumed_eq_zero {b : List Byte} (h : (decodeBuffer b).consumed = 0) :
    b.length < 4 ∨ phase b = .awaitingBody := by
  by_cases hshort : b.length < 4
  · exact .inl hshort
  · refine (phase_of_zero h).imp_left fun hphase => ?_
    obtain ⟨⟨-, hlt⟩ | hbody, -⟩ | ⟨hother, -⟩ | ⟨hother, -⟩ | ⟨hother, -⟩ := decodeBuffer_phase_cases b
    · exact hlt
    · rw [hphase] at hbody
      cases hbody
    all_goals
      rw [hphase] at hother
      cases hother

/-- Settles O35: an error consumes by its cause, and a `DECODE` that consumes nothing is reached since every other one
shortens RXBUF. -/
theorem decodeMakesProgress : Obligations.DecodeMakesProgress := by
  constructor
  · intro s t kind consumed hexec hraised
    rw [exec_decode] at hexec
    cases hexec
    obtain ⟨herror, rfl⟩ := (DecodeResult.toReply_eq_raised_iff _ _ _).mp hraised
    exact decodeBuffer_error_consumed herror
  · intro s
    obtain ⟨k, t, hk, hle, hrun, hmoves, houtcome, hzero⟩ := run_decodes_reaches_waiting s
    exact ⟨k, t, hk, hle, hrun, hmoves, houtcome, short_or_awaitingBody_of_consumed_eq_zero hzero⟩

end Sys2Proof.Machine
end

section
/-! PROOFS. The frames that `DECODE` finds (42_status_decoder.md section 5): a status frame at the front (R140), behind
other bytes (R141, R142), corrupt (95_test_vectors.md section 5), and the echo (70_reset_and_hazards.md section 4). -/

namespace Sys2Proof.Machine

/-! ### A status frame at the front -/

theorem exec_decode_statusFrame {s : State} {id : Byte} {params tail : List Byte} (hlen : params.length ≤ 253)
    (hbuf : s.rxbuf = statusFrame id 0 params ++ tail) :
    exec .decode s = .next { s with rxbuf := tail, outcome := .status id params (params.length + 6) } := by
  have hpass := decodeBuffer_statusFrame id 0 params tail hlen
  rw [← hbuf, if_neg (not_not.mpr rfl)] at hpass
  exact exec_decode_of_pass hpass

theorem exec_decode_faultFrame {s : State} {id e : Byte} {params tail : List Byte} (hlen : params.length ≤ 253)
    (he : e ≠ 0) (hbuf : s.rxbuf = statusFrame id e params ++ tail) :
    exec .decode s =
      .next { s with rxbuf := tail, outcome := .raised (.statusFault (classifyFlags e)) (params.length + 6) } := by
  have hpass := decodeBuffer_statusFrame id e params tail hlen
  rw [← hbuf, if_pos he] at hpass
  exact exec_decode_of_pass hpass

/-- Settles O39: the error byte decides between the two ends of step 6. -/
theorem decodeOfStatusFrame : Obligations.DecodeOfStatusFrame := by
  intro s id e params tail hlen hbuf
  constructor
  · rintro rfl
    exact exec_decode_statusFrame hlen hbuf
  · intro he
    exact exec_decode_faultFrame hlen he hbuf

/-- Settles O42: a built packet is a frame, and its instruction code stands where the error byte is read. -/
theorem echoDecodesAsStatusFault : Obligations.EchoDecodesAsStatusFault := by
  intro i s t u p tail hi hexec hp hbuf
  obtain ⟨-, id, code, params, hlen, hcode, rfl⟩ := builder_packet hi hexec hp
  refine ⟨code, rfl, hcode, ?_⟩
  rw [frame_length]
  exact exec_decode_faultFrame hlen hcode.ne_zero hbuf

/-! ### A frame behind other bytes -/

/-- A header found in a sequence is found in whatever the sequence is the front of. -/
theorem findHeader_append {l : List Byte} {p : Nat} (h : findHeader l = some p) (tail : List Byte) :
    findHeader (l ++ tail) = some p := by
  have hlt := findHeader_lt h
  obtain ⟨hfront, hleast⟩ := (findHeader_eq_some_iff l p).mp h
  have hsame : ∀ q, q ≤ p + 1 → (l ++ tail)[q]? = l[q]? := fun q hq => List.getElem?_append_left (by omega)
  rw [findHeader_eq_some_iff, hsame p (by omega), hsame (p + 1) le_rfl]
  refine ⟨hfront, fun q hq => ?_⟩
  rw [hsame q (by omega), hsame (q + 1) (by omega)]
  exact hleast q hq

/-- Bytes without any `0xFF` hide no header that follows them. -/
theorem findHeader_behind_garbage (garbage : List Byte) (id e : Byte) (params : List Byte)
    (h : ∀ b ∈ garbage, b ≠ 0xFF) :
    findHeader (garbage ++ statusFrame id e params) = some garbage.length := by
  rw [findHeader_eq_some_iff]
  refine ⟨⟨?_, ?_⟩, fun q hq hheader => ?_⟩
  · rw [List.getElem?_append_right le_rfl, Nat.sub_self]
    rfl
  · rw [List.getElem?_append_right (Nat.le_add_right _ 1), Nat.add_sub_cancel_left]
    rfl
  · rw [List.getElem?_append_left hq] at hheader
    exact h 0xFF (List.mem_of_getElem? hheader.1) rfl

/-- The bytes before the first header are discarded by one `DECODE` (R127, R141). -/
theorem exec_decode_garbage {s : State} {garbage : List Byte} {id e : Byte} {params tail : List Byte}
    (hne : garbage ≠ []) (hbuf : s.rxbuf = garbage ++ statusFrame id e params ++ tail)
    (hfind : findHeader (garbage ++ statusFrame id e params) = some garbage.length) :
    exec .decode s =
      .next { s with rxbuf := statusFrame id e params ++ tail, outcome := .incomplete garbage.length } := by
  have hpos : 0 < garbage.length := List.length_pos_iff.mpr hne
  have hfind' : findHeader s.rxbuf = some garbage.length := by
    rw [hbuf]
    exact findHeader_append hfind tail
  have hfront := ((findHeader_eq_some_iff _ _).mp hfind').2 0 hpos
  have h4 : 4 ≤ s.rxbuf.length := by
    rw [hbuf, List.length_append, List.length_append, statusFrame, frame_length]
    omega
  have hpass := decodeBuffer_resync h4 hfront hfind'
  have hdrop : s.rxbuf.drop garbage.length = statusFrame id e params ++ tail := by
    rw [hbuf, List.append_assoc, List.drop_left]
  rw [hdrop] at hpass
  exact exec_decode_of_pass hpass

/-- Settles O40: step 2 discards the garbage, step 6 returns the frame. -/
theorem frameBehindGarbageIsFound : Obligations.FrameBehindGarbageIsFound := by
  intro s garbage id params tail hne hlen hbuf
  exact ⟨findHeader_behind_garbage garbage id 0 params, fun hfind =>
    ⟨exec_decode_garbage hne hbuf hfind, exec_decode_statusFrame hlen rfl⟩⟩

/-- A `DECODE` that raises an error and consumes one byte drops that byte (R129, R131). -/
theorem exec_decode_raised_rxbuf {s t : State} {kind : ErrorKind} {n : Nat} (h : exec .decode s = .next t)
    (hraised : t.outcome = .raised kind n) : t.rxbuf = s.rxbuf.drop n := by
  rw [exec_decode] at h
  cases h
  obtain ⟨-, rfl⟩ := (DecodeResult.toReply_eq_raised_iff _ _ _).mp hraised
  exact (decodeBuffer_rest s.rxbuf).1

/-- Settles O41: what is left after the dropped byte is a frame at the front or behind garbage; the example is run. -/
theorem frameInsideCorruptFrameIsFound : Obligations.FrameInsideCorruptFrameIsFound := by
  constructor
  · intro s t kind before id params tail _ hexec hraised hlen hdrop hfind
    have hbuf : t.rxbuf = before ++ statusFrame id 0 params ++ tail :=
      (exec_decode_raised_rxbuf hexec hraised).trans hdrop
    constructor
    · rintro rfl
      exact exec_decode_statusFrame hlen hbuf
    · intro hne
      exact ⟨exec_decode_garbage hne hbuf hfind, exec_decode_statusFrame hlen rfl⟩
  · refine ⟨_, _, _, _, exec_decode _, exec_decode _, exec_decode _, exec_decode _, ?_⟩
    decide

/-! ### A corrupt frame -/

/-- A change behind the header that spares the LEN byte leaves a frame of the same LEN, its body changed (R60). -/
theorem set_body_eq (id len e x : Byte) (params : List Byte) {i : Nat} (hi : i ≠ 1) :
    ∃ id' e' params', (id :: len :: e :: params).set i x = id' :: len :: e' :: params'
      ∧ params'.length = params.length := by
  match i with
  | 0 => exact ⟨x, e, params, rfl, rfl⟩
  | 2 => exact ⟨id, x, params, rfl, rfl⟩
  | i + 3 => exact ⟨id, e, params.set i x, rfl, List.length_set⟩

/-- One byte of a frame changed from the ID on, LEN apart: a frame of the same LEN whose checksum is wrong, since the
change is in the body or in the checksum itself. -/
theorem statusFrame_set_eq (id e x : Byte) (params : List Byte) {j : Nat} (h2 : 2 ≤ j) (h3 : j ≠ 3)
    (hj : j < (statusFrame id e params).length) (hx : (statusFrame id e params)[j]? ≠ some x) :
    ∃ (id' e' check' : Byte) (params' : List Byte), params'.length = params.length
      ∧ (statusFrame id e params).set j x
          = 0xFF :: 0xFF :: id' :: BitVec.ofNat 8 (params.length + 2) :: e' :: (params' ++ [check'])
      ∧ checksum (id' :: BitVec.ofNat 8 (params.length + 2) :: e' :: params') ≠ check' := by
  obtain ⟨i, rfl⟩ := Nat.exists_eq_add_of_le' h2
  have hframe : statusFrame id e params
      = 0xFF :: 0xFF :: ((id :: BitVec.ofNat 8 (params.length + 2) :: e :: params)
        ++ [checksum (id :: BitVec.ofNat 8 (params.length + 2) :: e :: params)]) := rfl
  rw [hframe] at hx hj ⊢
  generalize BitVec.ofNat 8 (params.length + 2) = len at *
  simp only [List.getElem?_cons_succ, List.set_cons_succ] at hx ⊢
  simp only [List.length_cons, List.length_append, List.length_nil] at hj
  by_cases hbody : i < (id :: len :: e :: params).length
  · rw [List.getElem?_append_left hbody] at hx
    obtain ⟨id', e', params', hset, hlen⟩ := set_body_eq id len e x params (i := i) (by omega)
    refine ⟨id', e', checksum (id :: len :: e :: params), params', hlen, ?_, ?_⟩
    · rw [List.set_append_left _ _ hbody, hset]
      rfl
    · rw [← hset]
      exact checksum_set_ne _ i x hbody hx
  · obtain rfl : i = (id :: len :: e :: params).length := by
      simp only [List.length_cons] at hbody ⊢
      omega
    refine ⟨id, e, x, params, rfl, ?_, ?_⟩
    · rw [List.set_append_right _ _ le_rfl, Nat.sub_self]
      rfl
    · intro hcheck
      rw [List.getElem?_append_right le_rfl, Nat.sub_self, hcheck] at hx
      exact hx rfl

/-- Settles O49: what stands at the front is still a whole frame by its LEN, and its checksum is wrong. -/
theorem corruptByteIsDetected : Obligations.CorruptByteIsDetected := by
  intro s id e x params tail j hlen h2 h3 hj hx hbuf
  obtain ⟨id', e', check', params', hlen', hset, hwrong⟩ := statusFrame_set_eq id e x params h2 h3 hj hx
  have hbuf' : s.rxbuf =
      0xFF :: 0xFF :: id' :: BitVec.ofNat 8 (params.length + 2) :: e' :: (params' ++ check' :: tail) := by
    rw [hbuf, hset]
    simp
  have hlenByte := lenByte_toNat params hlen
  rw [hbuf']
  exact decodeRaisesChecksumError s id' _ e' check' params' tail hbuf' (by omega) hwrong

end Sys2Proof.Machine
end

section
/-! PROOFS. The receive side's other laws: capacity (R121), the buffer alone decides (R138), reset and clear (R31, R32),
the split header (70_reset_and_hazards.md section 4), the flags (R123), `DRAIN` (R145) and the
STATUS row (log entry 5). -/

namespace Sys2Proof.Machine

/-! ### Capacity -/

/-- `PUSH` is refused exactly where the bytes do not fit (R121). -/
theorem exec_push_refused_iff (bytes : List Byte) (s : State) :
    exec (.push bytes) s = .refused .bufferOverflow ↔ s.params.fits (s.rxbuf.length + bytes.length) = false := by
  rw [exec_push, State.receive_eq]
  cases s.params.fits (s.rxbuf.length + bytes.length) <;> simp

theorem exec_push_next_iff (bytes : List Byte) (s : State) :
    (∃ t, exec (.push bytes) s = .next t) ↔ s.params.fits (s.rxbuf.length + bytes.length) = true := by
  rw [exec_push, State.receive_eq]
  cases s.params.fits (s.rxbuf.length + bytes.length) <;> simp

theorem Params.fits_of_cap {p : Params} {cap : Nat} (h : p.bufCap = some cap) (n : Nat) :
    p.fits n = decide (n ≤ cap) := by
  rw [Params.fits, h]

theorem Params.fits_of_unbounded {p : Params} (h : p.bufCap = none) (n : Nat) : p.fits n = true := by
  rw [Params.fits, h]

theorem Params.cap_of_legal {p : Params} {cap : Nat} (hlegal : p.legal = true) (h : p.bufCap = some cap) :
    259 ≤ cap := by
  rw [Params.legal, h, Bool.and_eq_true, decide_eq_true_eq] at hlegal
  exact hlegal.1

/-- Settles O25: whether a push fits is the one test it makes. -/
theorem pushBeyondCapacityIsRefused : Obligations.PushBeyondCapacityIsRefused := by
  refine ⟨fun bytes s cap hcap => ⟨?_, ?_⟩, fun bytes s hcap => ?_, fun p cap => Params.cap_of_legal⟩
  · rw [exec_push_refused_iff, Params.fits_of_cap hcap, decide_eq_false_iff_not, Nat.not_le]
  · rw [exec_push_next_iff, Params.fits_of_cap hcap, decide_eq_true_eq]
  · rw [exec_push_next_iff, Params.fits_of_unbounded hcap]

/-! ### The buffer alone decides -/

/-- Settles O36: a pass is a function of the buffer, and a push of two parts is two pushes, the first fitting where both
do. -/
theorem decodeDependsOnTheBufferAlone : Obligations.DecodeDependsOnTheBufferAlone := by
  constructor
  · intro s u hsame
    refine ⟨_, _, exec_decode s, ?_⟩
    rw [hsame]
    exact exec_decode u
  · intro first second s t h
    obtain ⟨hfits, rfl⟩ := State.receive_next (s := s) h
    rw [List.length_append, ← Nat.add_assoc] at hfits
    refine ⟨_, exec_push_fits first s ((Params.fits_iff _ _).mp (Params.fits_mono hfits (by omega))), ?_⟩
    rw [exec_push_fits second]
    · rw [← List.append_assoc]
    · rw [List.length_append]
      exact (Params.fits_iff _ _).mp hfits

/-- `DECODE` on an empty RXBUF waits (R126). -/
theorem exec_decode_empty {s : State} (h : s.rxbuf = []) : exec .decode s = .next { s with outcome := .incomplete 0 } :=
  decodeWaitsForFourBytes s (by rw [h]; decide)

/-- What is pushed onto an empty RXBUF is then the whole of it (R120). -/
theorem exec_push_empty_rxbuf {bytes : List Byte} {s t : State} (hempty : s.rxbuf = [])
    (h : exec (.push bytes) s = .next t) : t.rxbuf = bytes := by
  rw [exec_push_rxbuf h, hempty, List.nil_append]

/-- Settles O38: what follows reset and `CLEAR` follows from RXBUF being empty. -/
theorem resetAndClearLeaveAnEmptyBuffer : Obligations.ResetAndClearLeaveAnEmptyBuffer := by
  refine ⟨rfl, exec_decode_empty rfl, fun bytes => ?_, fun s => ?_⟩
  · refine exec_push_fits bytes State.reset fun cap hcap => ?_
    cases hcap
  · exact ⟨_, exec_clear s, rfl, exec_decode_empty rfl, fun bytes u => exec_push_empty_rxbuf rfl⟩

/-! ### Bytes without a header -/

/-- Four or more bytes without a header anywhere are all discarded by one `DECODE` (R128). -/
theorem exec_decode_no_header {s : State} (h4 : 4 ≤ s.rxbuf.length) (hnone : findHeader s.rxbuf = none) :
    exec .decode s = .next { s with rxbuf := [], outcome := .incomplete s.rxbuf.length } :=
  decodeDiscardsBufferWithoutHeader s h4 ((findHeader_eq_none_iff _).mp hnone 0) hnone

/-- Settles O43: both passes find no header, the first before the frame's second header byte has arrived. -/
theorem splitHeaderLosesTheFrame : Obligations.SplitHeaderLosesTheFrame := by
  intro s garbage rest hgarbage hbuf hnone hrest hnone' hcap
  have hlen : s.rxbuf.length = garbage.length + 1 := by rw [hbuf, List.length_append, List.length_singleton]
  have hfirst := exec_decode_no_header (by omega) hnone
  rw [hlen] at hfirst
  have hpush : exec (.push (0xFF :: rest)) { s with rxbuf := [], outcome := .incomplete (garbage.length + 1) }
      = .next { s with rxbuf := 0xFF :: rest, outcome := .nothing } := by
    refine exec_push_fits _ _ fun cap hbound => ?_
    simpa using hcap cap hbound
  have hsecond : exec .decode { s with rxbuf := 0xFF :: rest, outcome := .nothing }
      = .next { s with rxbuf := [], outcome := .incomplete (rest.length + 1) } :=
    exec_decode_no_header (by rw [List.length_cons]; omega) hnone'
  exact ⟨_, _, _, hfirst, hpush, hsecond, rfl, rfl, rfl, rfl⟩

/-! ### The flags -/

/-- Bit `k` of a byte, as a number (R76). -/
theorem byte_getLsbD_iff (e : Byte) (k : Nat) : e.getLsbD k = true ↔ e.toNat / 2 ^ k % 2 = 1 := by
  rw [← BitVec.testBit_toNat, Nat.testBit_eq_decide_div_mod_eq, decide_eq_true_eq]

theorem exec_classifyFlags (e : Byte) (s : State) :
    exec (.classifyFlags e) s = .next { s with outcome := .flags (classifyFlags e) } := rfl

/-- Settles O45: flag `k` of the list is bit `k` of the byte. -/
theorem classifyFlagsReadsTheSevenBits : Obligations.ClassifyFlagsReadsTheSevenBits := by
  intro e s
  refine ⟨_, exec_classifyFlags e s, ?_, byte_getLsbD_iff e 1, byte_getLsbD_iff e 2, byte_getLsbD_iff e 3,
    byte_getLsbD_iff e 4, byte_getLsbD_iff e 5, byte_getLsbD_iff e 6⟩
  have hbit := byte_getLsbD_iff e 0
  rwa [Nat.pow_zero, Nat.div_one] at hbit

/-! ### The drain -/

/-- `DRAIN` ends with its first pass, unless that is an `Incomplete` that consumed bytes (R145). -/
theorem drainBuffer_last {b : List Byte}
    (h : (decodeBuffer b).outcome = .incomplete → (decodeBuffer b).consumed = 0) : drainBuffer b = decodeBuffer b := by
  rw [drainBuffer_eq, if_neg (fun hmore => hmore.2 (h hmore.1))]

/-- Bytes counted in the result are bytes counted in the answer (R145). -/
theorem DecodeResult.toReply_add (r : DecodeResult) (n : Nat) :
    ({ r with consumed := n + r.consumed } : DecodeResult).toReply = r.toReply.addConsumed n := by
  obtain ⟨o, c, b⟩ := r
  cases o <;> rfl

/-- A drain that says `Incomplete` has come to a waiting phase (R145). -/
theorem phase_drainBuffer_of_incomplete (b : List Byte) (h : (drainBuffer b).outcome = .incomplete) :
    phase (drainBuffer b).rest = .awaitingLengthBytes ∨ phase (drainBuffer b).rest = .awaitingBody := by
  refine drainBuffer_induction (P := fun _ r => r.outcome = .incomplete →
    phase r.rest = .awaitingLengthBytes ∨ phase r.rest = .awaitingBody) ?_ ?_ b h
  · intro b hlast hincomplete
    have hzero : (decodeBuffer b).consumed = 0 := by
      by_contra hsome
      exact hlast ⟨hincomplete, hsome⟩
    rw [decodeBuffer_of_consumed_eq_zero hzero]
    exact phase_of_zero hzero
  · exact fun b r _ _ ih => ih

/-- Settles O46: the equation of the loop, read on the answers. -/
theorem drainIsItsLoop : Obligations.DrainIsItsLoop := by
  intro s
  refine ⟨_, _, exec_decode s, exec_drain s, fun hother => ?_, fun hzero => ?_, fun n hn hmore => ?_,
    fun total hend => ?_⟩
  · rw [drainBuffer_last fun hincomplete =>
      absurd ((DecodeResult.toReply_eq_incomplete_iff _ _).mpr ⟨hincomplete, rfl⟩) (hother _)]
  · rw [drainBuffer_last fun _ => ((DecodeResult.toReply_eq_incomplete_iff _ _).mp hzero).2]
  · obtain ⟨hincomplete, rfl⟩ := (DecodeResult.toReply_eq_incomplete_iff _ _).mp hmore
    refine ⟨_, exec_drain _, ?_⟩
    rw [drainBuffer_eq s.rxbuf, if_pos ⟨hincomplete, hn⟩, DecodeResult.toReply_add]
  · exact phase_drainBuffer_of_incomplete _ ((DecodeResult.toReply_eq_incomplete_iff _ _).mp hend).1

/-! ### The STATUS row -/

/-- A status packet that exists and fits arrives whole, and RXBUF is then decoded once (log entry 5). -/
theorem exec_status_fits (id e : Byte) (params : List Byte) (s : State) (hlen : params.length ≤ 253)
    (hfits : ∀ cap, s.params.bufCap = some cap → s.rxbuf.length + (params.length + 6) ≤ cap) :
    exec (.status id e params) s
      = exec .decode { s with rxbuf := s.rxbuf ++ statusFrame id e params, outcome := .nothing } := by
  rw [exec_status, execStatus_eq, if_pos hlen, if_pos ((Params.fits_iff _ _).mpr hfits), exec_decode]

/-- Settles O47: a packet that arrives in an empty RXBUF is the status frame at its front. -/
theorem statusIsArrivalThenDecode : Obligations.StatusIsArrivalThenDecode := by
  intro s id e params hlen hfits
  have hpush : exec (.push (statusFrame id e params)) s
      = .next { s with rxbuf := s.rxbuf ++ statusFrame id e params, outcome := .nothing } :=
    exec_push_fits _ _ (by rwa [statusFrame, frame_length])
  have harrived (hempty : s.rxbuf = []) :
      ({ s with rxbuf := s.rxbuf ++ statusFrame id e params, outcome := .nothing } : State).rxbuf
        = statusFrame id e params ++ [] := by rw [hempty, List.nil_append, List.append_nil]
  refine ⟨_, _, hpush, exec_decode _, (exec_status_fits id e params s hlen hfits).trans (exec_decode _), ?_, ?_⟩
  · rintro hempty rfl
    have hdecode := exec_decode_statusFrame hlen (harrived hempty)
    rw [hempty] at hdecode ⊢
    exact Host.Outcome.next.inj ((exec_decode _).symm.trans hdecode)
  · intro hempty he
    have hdecode := exec_decode_faultFrame hlen he (harrived hempty)
    rw [hempty] at hdecode ⊢
    exact Host.Outcome.next.inj ((exec_decode _).symm.trans hdecode)

end Sys2Proof.Machine
end

section
/-! PROOFS. The step (00_scope.md section 5): what it runs, and what it does to the moves and the parameters. -/

namespace Sys2Proof.Machine

/-! ### A step -/

theorem step_idle {s : State} (h : s.moves = []) : step s = .next s := by
  rw [step, h]

theorem step_call {s : State} {i : Instr} {later : List Move} (h : s.moves = .call i :: later) :
    step s = exec i { s with moves := later } := by
  rw [step, h]
  rfl

/-- A move given as bytes is the operation that the recogniser reads from them, or none (R84). -/
theorem step_packet {s : State} {bytes : List Byte} {later : List Move} (h : s.moves = .packet bytes :: later) :
    step s = match decode bytes with
      | some (i, _) => exec i { s with moves := later }
      | none => .refused .unrecognisedPacket := by
  rw [step, h]
  dsimp only [Move.operation]
  cases decode bytes <;> rfl

/-- Settles O21: by the form of the next move. -/
theorem stepRunsTheDecodedOperation : Obligations.StepRunsTheDecodedOperation := by
  refine ⟨fun s bytes tail later i hmoves hdecode => ?_, fun s later i => step_call⟩
  rw [step_packet hmoves, hdecode]

/-- Settles O22: no move, or one that is no packet. -/
theorem stepWithoutOperation : Obligations.StepWithoutOperation := by
  refine ⟨fun s => step_idle, fun s bytes later hmoves hdecode => ?_⟩
  rw [step_packet hmoves, hdecode]

/-- Settles O23: the bits are placed as the next move, and the rest of the state is as before. -/
theorem stepRunsThePlacedWord : Obligations.StepRunsThePlacedWord := by
  intro s nbits w i h
  rw [decodeTableWord, Option.map_eq_some_iff] at h
  obtain ⟨⟨i', tail⟩, hdecode, rfl⟩ := h
  have hmoves : (s.withFetchWord nbits w).moves = .packet (tableBytes nbits w) :: s.moves := rfl
  rw [step_packet hmoves, hdecode]
  rfl

/-- Settles O57: the operation changes no parameter and no move, and the step itself takes the first move. -/
theorem stepKeepsParameters : Obligations.StepKeepsParameters := by
  intro s t h
  obtain ⟨hidle, rfl⟩ | ⟨m, later, i, hmoves, -, hexec⟩ := step_cases h
  · exact ⟨rfl, by rw [hidle]; rfl⟩
  · obtain ⟨hlater, hparams⟩ := exec_keeps_moves_and_params hexec
    exact ⟨hparams, by rw [hlater, hmoves]; rfl⟩

end Sys2Proof.Machine
end

section
/-! PROOFS. What every operation does: where it is defined (60_exceptions.md section 4), and that the transmit side is
apart from the receive side (20_memory.md section 6). -/

namespace Sys2Proof.Machine

/-! ### Where operations are defined -/

theorem exec_frame_next_iff (id code : Byte) (params : List Byte) (s : State) :
    (∃ t, exec (.frame id code params) s = .next t) ↔ params.length ≤ 253 := by
  constructor
  · rintro ⟨t, h⟩
    exact (State.replyFrame_next (s := s) h).1
  · exact fun hlen => ⟨_, exec_frame_fits id code params s hlen⟩

theorem exec_status_next_iff (id e : Byte) (params : List Byte) (s : State) :
    (∃ t, exec (.status id e params) s = .next t)
      ↔ params.length ≤ 253 ∧ s.params.fits (s.rxbuf.length + (params.length + 6)) = true := by
  rw [exec_status, execStatus_eq]
  by_cases hlen : params.length ≤ 253
  · by_cases hfits : s.params.fits (s.rxbuf.length + (params.length + 6)) = true <;> simp [hlen, hfits]
  · simp [hlen]

theorem exec_syncWrite_next_iff (addr width : Byte) (cs : List SyncCommand) (s : State) :
    (∃ t, exec (.syncWrite addr width cs) s = .next t) ↔ (¬ (width = 1 ∨ width = 2) ∨ syncLen width cs ≤ 255) := by
  rw [exec_syncWrite]
  by_cases hw : width = 1 ∨ width = 2
  · rcases Nat.lt_or_ge 255 (syncLen width cs) with hl | hl
    · rw [execSyncWrite_tooLong addr width cs s hw hl]
      exact iff_of_false nofun fun h => h.elim (· hw) (Nat.not_le.mpr hl)
    · rw [execSyncWrite_fits addr width cs s hw hl]
      exact iff_of_true ⟨_, rfl⟩ (.inr hl)
  · obtain ⟨h1, h2⟩ := not_or.mp hw
    rw [execSyncWrite_badWidth addr width cs s h1 h2]
    exact iff_of_true ⟨_, rfl⟩ (.inl hw)

/-- An operation has an outcome exactly where `definedIn` says so. -/
theorem exec_next_iff_definedIn (i : Instr) (s : State) : (∃ t, exec i s = .next t) ↔ i.definedIn s = true := by
  cases i with
  | syncWrite addr width cs =>
    rw [exec_syncWrite_next_iff, Instr.definedIn, Bool.or_eq_true, Bool.not_eq_true', ← Bool.not_eq_true,
      syncWidthLegal_iff, decide_eq_true_eq]
  | status id e params =>
    rw [exec_status_next_iff, Instr.definedIn, Bool.and_eq_true, decide_eq_true_eq]
  | frame id code params => rw [exec_frame_next_iff, Instr.definedIn, decide_eq_true_eq]
  | statusFrame id e params => rw [exec_statusFrame, exec_frame_next_iff, Instr.definedIn, decide_eq_true_eq]
  | push bytes => exact exec_push_next_iff bytes s
  | ping | read | write8 | write16 | checksum | decode | clear | findHeader | classifyFlags | drain =>
    exact iff_of_true ⟨_, rfl⟩ rfl

/-- Settles O52: there is no fault to stop with. -/
theorem operationsAreDefined : Obligations.OperationsAreDefined :=
  fun i s => ⟨exec_next_iff_definedIn i s, nofun⟩

/-! ### The transmit side -/

theorem arrivedBytes_of_not_receive {i : Instr} (h : i.isReceive = false) : i.arrivedBytes = [] := by
  cases i with
  | status | push | decode | clear | drain => cases h
  | ping | read | write8 | write16 | syncWrite | checksum | frame | findHeader | classifyFlags | statusFrame => rfl

/-- What a `FRAME` answers, it answers whatever RXBUF holds (R100). -/
theorem exec_frame_any_buffer {id code : Byte} {params : List Byte} {s t : State}
    (h : exec (.frame id code params) s = .next t) :
    t.rxbuf = s.rxbuf ∧ ∀ b, exec (.frame id code params) { s with rxbuf := b } = .next { t with rxbuf := b } := by
  obtain ⟨hlen, rfl⟩ := State.replyFrame_next (s := s) h
  exact ⟨rfl, fun b => exec_frame_fits id code params _ hlen⟩

/-- What a builder does, it does whatever RXBUF holds (R112). -/
theorem exec_builder_any_buffer {i : Instr} (hi : i.isBuilder = true) {s t : State} (h : exec i s = .next t)
    (b : List Byte) : exec i { s with rxbuf := b } = .next { t with rxbuf := b } := by
  obtain ⟨p, he⟩ | ⟨_, _, _, -, -, -, he⟩ | ⟨_, _, _, -, -, -, he⟩ := exec_builder_cases hi <;>
    rw [he] at h ⊢ <;> cases h
  · rfl
  · rfl

/-- Settles O58: builders, frames and the pure helpers, one after another. -/
theorem transmitSideIgnoresTheBuffer : Obligations.TransmitSideIgnoresTheBuffer := by
  intro i s t hi h
  cases i with
  | ping | read | write8 | write16 | syncWrite =>
    exact ⟨exec_builder_keeps_rxbuf rfl h, exec_builder_any_buffer rfl h⟩
  | frame id code params => exact exec_frame_any_buffer h
  | statusFrame id e params => exact exec_frame_any_buffer h
  | checksum | findHeader | classifyFlags =>
    cases h
    exact ⟨rfl, fun _ => rfl⟩
  | status | push | decode | clear | drain => cases hi

/-- Settles O59: of the cases of an operation that answers, one draws a text. -/
theorem onlyTheWidthErrorDrawsAText : Obligations.OnlyTheWidthErrorDrawsAText := by
  intro i s t h
  rcases exec_cases h with ⟨-, _, _, _, -, rfl⟩ | ⟨-, -, _, -, -, -, rfl⟩ | ⟨addr, width, cs, rfl, h1, h2, rfl⟩
    | ⟨_, -, -, rfl⟩ | ⟨-, rfl⟩ | ⟨-, -, _, -, rfl⟩ | ⟨-, -, rfl⟩
  case inr.inr.inl => exact .inr ⟨addr, width, cs, rfl, h1, h2, rfl⟩
  all_goals exact .inl rfl

end Sys2Proof.Machine
end

section
/-! PROOFS. RXBUF over operations and runs (10_state.md section 1, 20_memory.md section 6), and the agents whose moves
the operations are (00_scope.md section 5). -/

namespace Sys2Proof.Machine

/-! ### The received stream -/

/-- A result of the decoder that leaves the buffer less the bytes it consumed from its front. -/
theorem pass_or_drain_rest {b : List Byte} {r : DecodeResult} (h : r = decodeBuffer b ∨ r = drainBuffer b) :
    r.rest = b.drop r.consumed := by
  obtain rfl | rfl := h
  · exact (decodeBuffer_rest b).1
  · exact (drainBuffer_rest b).1

/-- Settles O55: an operation appends, or drops from the front, or leaves RXBUF as it is. -/
theorem operationsKeepBufferOrder : Obligations.OperationsKeepBufferOrder := by
  intro i s t h
  rcases exec_cases h with ⟨hi, _, _, _, -, rfl⟩ | ⟨hi, -, _, -, -, -, rfl⟩ | ⟨_, _, _, rfl, -, -, rfl⟩
    | ⟨bytes, rfl, -, rfl⟩ | ⟨rfl, rfl⟩ | ⟨-, -, r, hr, rfl⟩ | ⟨-, -, rfl⟩
  · exact ⟨0, by simp [arrivedBytes_of_not_receive hi]⟩
  · exact ⟨0, by simp [arrivedBytes_of_not_receive hi]⟩
  · exact ⟨0, by simp [Instr.arrivedBytes]⟩
  · exact ⟨0, rfl⟩
  · exact ⟨s.rxbuf.length, by simp [Instr.arrivedBytes]⟩
  · exact ⟨r.consumed, pass_or_drain_rest (hr.imp_right And.right)⟩
  · exact ⟨_, (decodeBuffer_rest _).1⟩

/-- The stream that a list of moves brings, move by move (R52). -/
theorem receivedStream_cons {m : Move} {i : Instr} (h : m.operation = some i) (later : List Move) :
    receivedStream (m :: later) = i.arrivedBytes ++ receivedStream later := by
  rw [receivedStream, List.flatMap_cons, h]
  rfl

theorem suffix_append_of_suffix {a b : List Byte} (h : a <:+ b) (c : List Byte) : a ++ c <:+ b ++ c := by
  obtain ⟨front, rfl⟩ := h
  exact ⟨front, (List.append_assoc _ _ _).symm⟩

/-- After any run RXBUF is a last part of what it held and what has arrived since: by induction on the steps (R52). -/
theorem run_rxbuf_suffix (n : Nat) (s t : State)
    (h : Host.Core.run Sys2Proof.core n s = Host.Outcome.next t) :
    t.rxbuf <:+ s.rxbuf ++ receivedStream (s.moves.take n) := by
  induction n generalizing s with
  | zero =>
    cases h
    show t.rxbuf <:+ t.rxbuf ++ []
    rw [List.append_nil]
  | succ n ih =>
    obtain ⟨u, hstep, hrun⟩ := run_succ_next Sys2Proof.core n s t h
    have hsuffix := ih u hrun
    obtain ⟨hidle, rfl⟩ | ⟨m, later, i, hmoves, hop, hexec⟩ := step_cases (s := s) (t := u) hstep
    · rw [hidle, List.take_nil] at hsuffix ⊢
      exact hsuffix
    · obtain ⟨k, hbuf⟩ := operationsKeepBufferOrder i _ u hexec
      have hlater : u.moves = later := (exec_keeps_moves_and_params hexec).1
      rw [hlater] at hsuffix
      rw [hmoves, List.take_succ_cons, receivedStream_cons hop, ← List.append_assoc]
      refine hsuffix.trans (suffix_append_of_suffix ?_ _)
      rw [hbuf]
      exact List.drop_suffix _ _

/-- Settles O56: a last part is what is left when some bytes have gone from the front. -/
theorem bufferIsTailOfReceivedStream : Obligations.BufferIsTailOfReceivedStream :=
  fun n s t h => ⟨_, List.suffix_iff_eq_drop.mp (run_rxbuf_suffix n s t h)⟩

/-! ### The agents -/

/-- LINK's move of an operation is a `PUSH` (R11). -/
theorem agentMoves_link {i j : Instr} (h : (Agent.link, j) ∈ i.agentMoves) : ∃ bytes, j = .push bytes := by
  cases i with
  | push bytes => exact ⟨bytes, by simpa [Instr.agentMoves] using h⟩
  | status id e params => exact ⟨statusFrame id e params, by simpa [Instr.agentMoves] using h⟩
  | ping | read | write8 | write16 | syncWrite | checksum | frame | decode | clear | findHeader | classifyFlags
  | statusFrame | drain =>
    simp [Instr.agentMoves] at h

/-- HOST's move of an operation brings no bytes (R11). -/
theorem agentMoves_host {i j : Instr} (h : (Agent.host, j) ∈ i.agentMoves) : j.arrivedBytes = [] := by
  cases i with
  | push => simp [Instr.agentMoves] at h
  | status | ping | read | write8 | write16 | syncWrite | checksum | frame | decode | clear | findHeader | classifyFlags
  | statusFrame | drain =>
    obtain rfl : j = _ := by simpa [Instr.agentMoves] using h
    rfl

/-- A list of one operation is that operation. -/
theorem execAll_singleton (i : Instr) (s : State) : execAll [i] s = exec i s := by
  rw [execAll]
  cases exec i s <;> rfl

/-- An operation but the STATUS row is one move (R11). -/
theorem agentMoves_single {i : Instr} (h : ∀ id e params, i ≠ .status id e params) :
    i.agentMoves.map Prod.snd = [i] := by
  cases i with
  | status id e params => exact absurd rfl (h id e params)
  | push | ping | read | write8 | write16 | syncWrite | checksum | frame | decode | clear | findHeader | classifyFlags
  | statusFrame | drain => rfl

/-- The STATUS row is `PUSH` and `DECODE` in order, and is refused where the `PUSH` is (log entry 5). -/
theorem execAll_status (id e : Byte) (params : List Byte) (s : State) (hlen : params.length ≤ 253) :
    execAll [.push (statusFrame id e params), .decode] s = exec (.status id e params) s := by
  have hframe : (statusFrame id e params).length = params.length + 6 := frame_length id e params
  rw [execAll, exec_push, State.receive_eq, exec_status, execStatus_eq, if_pos hlen, hframe]
  by_cases hfits : s.params.fits (s.rxbuf.length + (params.length + 6)) = true
  · rw [if_pos hfits, if_pos hfits]
    exact (execAll_singleton _ _).trans (exec_decode _)
  · rw [if_neg hfits, if_neg hfits]

/-- Settles O60: each operation is one move, but for the STATUS row; a `PUSH` appends, and what brings no bytes only
drops some. -/
theorem linkOnlyPushes : Obligations.LinkOnlyPushes := by
  refine ⟨fun i j => agentMoves_link, fun i s hparams => ?_, fun i j s t hj h => ?_, fun i j s t hj h => ?_⟩
  · by_cases hstatus : ∃ id e params, i = .status id e params
    · obtain ⟨id, e, params, rfl⟩ := hstatus
      exact execAll_status id e params s (hparams id e params rfl)
    · rw [agentMoves_single fun id e params hi => hstatus ⟨id, e, params, hi⟩, execAll_singleton]
  · obtain ⟨bytes, rfl⟩ := agentMoves_link hj
    exact exec_push_rxbuf h
  · obtain ⟨n, hbuf⟩ := operationsKeepBufferOrder j s t h
    rw [agentMoves_host hj, List.append_nil] at hbuf
    exact ⟨n, hbuf⟩

end Sys2Proof.Machine
end

section
/-! PROOFS. What every step keeps, and the error kinds that operations return (60_exceptions.md section 1). -/

namespace Sys2Proof.Machine

/-! ### The invariant -/

theorem pass_or_drain_sound {b : List Byte} {r : DecodeResult} (h : r = decodeBuffer b ∨ r = drainBuffer b) :
    r.Sound := by
  obtain rfl | rfl := h
  · exact decodeBuffer_sound b
  · exact drainBuffer_sound b

/-- What the decoder leaves of a buffer within the capacity is within the capacity. -/
theorem fits_pass_or_drain {p : Params} {b : List Byte} {r : DecodeResult}
    (h : r = decodeBuffer b ∨ r = drainBuffer b) (hfits : p.fits b.length = true) : p.fits r.rest.length = true := by
  refine Params.fits_mono hfits ?_
  rw [pass_or_drain_rest h, List.length_drop]
  exact Nat.sub_le _ _

/-- Every operation keeps the invariant: by what an operation that answers can have done. -/
theorem exec_keeps_inv {i : Instr} {s t : State} (hs : s.Inv) (h : exec i s = .next t) : t.Inv := by
  obtain ⟨hlegal, hfits, -⟩ := hs
  rcases exec_cases h with ⟨-, id, code, params, hlen, rfl⟩ | ⟨-, -, r, hr, -, -, rfl⟩ | ⟨_, _, _, -, -, -, rfl⟩
    | ⟨bytes, -, hroom, rfl⟩ | ⟨-, rfl⟩ | ⟨-, hroom, r, hr, rfl⟩ | ⟨-, hroom, rfl⟩
  · exact ⟨hlegal, hfits, isFrame_frame id code params hlen⟩
  · exact ⟨hlegal, hfits, hr⟩
  · exact ⟨hlegal, hfits, rfl⟩
  · refine ⟨hlegal, ?_, rfl⟩
    rwa [List.length_append]
  · exact ⟨hlegal, Params.fits_mono hfits (Nat.zero_le _), rfl⟩
  · have hr' := hr.imp_right And.right
    exact ⟨hlegal, fits_pass_or_drain hr' (hroom.trans hfits), (pass_or_drain_sound hr').toReply_sound⟩
  · exact ⟨hlegal, fits_pass_or_drain (.inl rfl) hroom, (decodeBuffer_sound _).toReply_sound⟩

/-- Settles O50: a step does nothing, or takes a move and executes its operation. -/
theorem stepKeepsTheMachineSound : Obligations.StepKeepsTheMachineSound := by
  intro s t hs h
  obtain ⟨-, rfl⟩ | ⟨m, later, i, -, -, hexec⟩ := step_cases h
  · exact hs
  · have hs' : ({ s with moves := later } : State).Inv := hs
    exact exec_keeps_inv hs' hexec

/-- Settles O51: the defaults are legal, the buffer is empty, and nothing has been answered. -/
theorem resetIsSound : Obligations.ResetIsSound := ⟨rfl, rfl, rfl⟩

/-! ### The error kinds -/

/-- What is said of an error of one pass: its kind, the bytes removed, and its cause in the bytes examined (R151). -/
theorem decodeBuffer_raised {b : List Byte} {kind : ErrorKind} {n : Nat}
    (h : (decodeBuffer b).toReply = .raised kind n) :
    kind.raisedByDecode = true ∧ 1 ≤ n ∧ (decodeBuffer b).rest = b.drop n ∧ HasDecodeCause b kind n := by
  obtain ⟨herror, rfl⟩ := (DecodeResult.toReply_eq_raised_iff _ _ _).mp h
  obtain ⟨hkind, hpos⟩ := (decodeBuffer_sound b).1 kind herror
  exact ⟨hkind, hpos, (decodeBuffer_rest b).1, decodeBuffer_cause herror⟩

/-- The same of a drain, whose last pass found the cause behind what the earlier ones removed (R145, R151). -/
theorem drainBuffer_raised {b : List Byte} {kind : ErrorKind} {n : Nat} (h : (drainBuffer b).toReply = .raised kind n) :
    kind.raisedByDecode = true ∧ 1 ≤ n ∧ (drainBuffer b).rest = b.drop n
      ∧ ∃ before, before ≤ n ∧ HasDecodeCause (b.drop before) kind (n - before) := by
  obtain ⟨herror, rfl⟩ := (DecodeResult.toReply_eq_raised_iff _ _ _).mp h
  obtain ⟨hkind, hpos⟩ := (drainBuffer_sound b).1 kind herror
  exact ⟨hkind, hpos, (drainBuffer_rest b).1, drainBuffer_cause b kind herror⟩

/-- Settles O53: an error is the width error of a sync-write, or one that a pass or a drain returns. -/
theorem raisedKindsAreTheBlocks : Obligations.RaisedKindsAreTheBlocks := by
  intro i s t kind n h hraised
  rcases exec_cases h with ⟨-, _, _, _, -, rfl⟩ | ⟨-, -, r, -, -, hpure, rfl⟩ | ⟨addr, width, cs, hi, h1, h2, rfl⟩
    | ⟨_, -, -, rfl⟩ | ⟨-, rfl⟩ | ⟨hi, -, r, rfl | ⟨hdrain, rfl⟩, rfl⟩ | ⟨hi, -, rfl⟩
  · cases hraised
  · exact absurd hraised (hpure kind n)
  · cases hraised
    exact ⟨rfl, .inr ⟨⟨_, rfl⟩, rfl, rfl, addr, width, cs, hi, h1, h2⟩⟩
  · cases hraised
  · cases hraised
  · obtain ⟨hkind, hpos, hrest, hcause⟩ := decodeBuffer_raised hraised
    exact ⟨ErrorKind.recoverable_of_raisedByDecode hkind,
      .inl ⟨hkind, hi, hpos, hrest, 0, Nat.zero_le _, fun _ => rfl, hcause⟩⟩
  · obtain ⟨hkind, hpos, hrest, before, hle, hcause⟩ := drainBuffer_raised hraised
    exact ⟨ErrorKind.recoverable_of_raisedByDecode hkind,
      .inl ⟨hkind, hi, hpos, hrest, before, hle, fun hpass => absurd hdrain hpass, hcause⟩⟩
  · obtain ⟨hkind, hpos, hrest, hcause⟩ := decodeBuffer_raised hraised
    exact ⟨ErrorKind.recoverable_of_raisedByDecode hkind,
      .inl ⟨hkind, hi, hpos, hrest, 0, Nat.zero_le _, fun _ => rfl, hcause⟩⟩

end Sys2Proof.Machine
end
